-- ==== Sys2Proof/Word.lean ====
section
/-! DEFINITION. Value types (00_scope.md R8): the unsigned integers below 2^8, 2^32, 2^64 and 2^128. -/

namespace Sys2Proof

/-- `U8`, a byte of a message, an opcode byte or a payload lane. -/
abbrev Byte := BitVec 8
/-- `U32`, a word of engine E32 and the seed. -/
abbrev U32 := BitVec 32
/-- `U64`, a lane of engine E128. -/
abbrev U64 := BitVec 64
/-- `U128`, the payload of a command. -/
abbrev U128 := BitVec 128

end Sys2Proof
end

