-- ==== Sys2Proof/Syntax.lean ====
section
/-! DEFINITION. Syntax: the nine commands (30_encoding.md R73) and the beat that carries one (R70). -/

namespace Sys2Proof

/-- A beat, 136 bits `{cmd_op, cmd_data}` (30_encoding.md R70). -/
structure Beat where
  /-- `cmd_op`, bits 135:128 -/
  op : Byte
  /-- `cmd_data`, bits 127:0 -/
  data : U128
  deriving DecidableEq, Repr

/-- The commands, with the operands the assembler notation gives them (30_encoding.md R78): a seed, or the message bytes
the beat carries, first byte first. The payload bits a command does not use are no part of it (R72). -/
inductive Instr where
  /-- `NOP`, 43_control.md R200 -/
  | nop
  /-- `INIT32 seed`, 41_x86_32_engine.md R141 -/
  | init32 (seed : U32)
  /-- `BLK32 b0 b1 b2 b3`, R142 -/
  | blk32 (bytes : List Byte)
  /-- `TAIL32 b0 .. b(n-1)`, n from 0 to 3, R143 -/
  | tail32 (bytes : List Byte)
  /-- `FIN32`, R144 -/
  | fin32
  /-- `INIT128 seed`, 42_x64_128_engine.md R171 -/
  | init128 (seed : U32)
  /-- `BLK128 b0 .. b15`, R172 -/
  | blk128 (bytes : List Byte)
  /-- `TAIL128 b0 .. b(n-1)`, n from 0 to 15, R173 -/
  | tail128 (bytes : List Byte)
  /-- `FIN128`, R174 -/
  | fin128
  deriving DecidableEq, Repr

end Sys2Proof
end

