-- ==== Sys2Proof/WellFormed.lean ====
section
/-! DEFINITION. Well-formed commands: the byte counts of the assembler notation (30_encoding.md R78). -/

namespace Sys2Proof

/-- The command can be written and encoded: exactly 4 or 16 bytes in a block, at most 3 or 15 in a tail
(30_encoding.md R73, R78). -/
def Instr.wf : Instr → Bool
  | .nop => true
  | .init32 _ => true
  | .blk32 bytes => bytes.length == 4
  | .tail32 bytes => decide (bytes.length ≤ 3)
  | .fin32 => true
  | .init128 _ => true
  | .blk128 bytes => bytes.length == 16
  | .tail128 bytes => decide (bytes.length ≤ 15)
  | .fin128 => true

end Sys2Proof
end

