-- ==== Sys2Proof/Decode.lean ====
section
/-! DEFINITION. The decoder, total on every beat and rejecting by name, and after it the encoder
(30_encoding.md R70 to R76; byte lanes 20_memory.md R51). -/

namespace Sys2Proof

/-! ### Fields of a beat -/

/-- `E = cmd_op[7]`: 0 is E32 (and `NOP`), 1 is E128 (R71). -/
def engineField (op : Byte) : BitVec 1 := op.extractLsb' 7 1

/-- `F = cmd_op[6:4]`, the function (R71). -/
def functionField (op : Byte) : BitVec 3 := op.extractLsb' 4 3

/-- `N = cmd_op[3:0]`, the byte count of a tail (R71). -/
def countField (op : Byte) : BitVec 4 := op.extractLsb' 0 4

/-- Byte lane `i`, `cmd_data[8i+7 : 8i]` (20_memory.md R51). -/
def lane (data : U128) (i : Nat) : Byte := data.extractLsb' (8 * i) 8

/-- Lanes 0 to `n - 1`, lane 0 first. -/
def lanes (n : Nat) (data : U128) : List Byte := (List.range n).map (lane data)

/-- `seed = cmd_data[31:0]` (R74). -/
def seedField (data : U128) : U32 := data.extractLsb' 0 32

/-! ### The decoder -/

/-- Why an opcode byte is reserved: the rows of R75's table. Each raises `IllegalOp` (60_exceptions.md R212). -/
inductive Reserved where
  /-- `0x01` to `0x0F`: no control command but `NOP` -/
  | controlCount
  /-- `0x11` to `0x1F`, `0x21` to `0x2F`, `0x41` to `0x4F`: `INIT32`, `BLK32`, `FIN32` with a byte count -/
  | e32Count
  /-- `0x34` to `0x3F`: a tail of E32 with more than 3 bytes -/
  | tail32Count
  /-- `0x50` to `0x7F`: no such function of E32 -/
  | e32Function
  /-- `0x80` to `0x8F`: no control command of E128 -/
  | e128Control
  /-- `0x91` to `0x9F`, `0xA1` to `0xAF`, `0xC1` to `0xCF`: `INIT128`, `BLK128`, `FIN128` with a byte count -/
  | e128Count
  /-- `0xD0` to `0xFF`: no such function of E128 -/
  | e128Function
  deriving DecidableEq, Repr

/-- What an opcode byte selects: a command with its byte count, or a reserved byte under its name (R73, R75). -/
inductive Selected where
  | nop
  | init32
  | blk32
  | tail32 (n : Nat)
  | fin32
  | init128
  | blk128
  | tail128 (n : Nat)
  | fin128
  | reserved (why : Reserved)
  deriving DecidableEq, Repr

/-- A command that takes no byte count: reserved with one. -/
def noCount (n : BitVec 4) (c : Selected) (why : Reserved) : Selected := if n = 0 then c else .reserved why

/-- The decoder of R76, on the opcode byte alone: the payload never decides legality (R75). -/
def decodeOp (op : Byte) : Selected :=
  let e := engineField op
  let f := functionField op
  let n := countField op
  if f = 0 then (if e = 0 then noCount n .nop .controlCount else .reserved .e128Control)
  else if f = 1 then (if e = 0 then noCount n .init32 .e32Count else noCount n .init128 .e128Count)
  else if f = 2 then (if e = 0 then noCount n .blk32 .e32Count else noCount n .blk128 .e128Count)
  else if f = 3 then
    if e = 0 then (if n.toNat ≤ 3 then .tail32 n.toNat else .reserved .tail32Count) else .tail128 n.toNat
  else if f = 4 then (if e = 0 then noCount n .fin32 .e32Count else noCount n .fin128 .e128Count)
  else if e = 0 then .reserved .e32Function
  else .reserved .e128Function

/-- What the decoder answers: a command, or the name under which the byte is reserved. -/
inductive Decoded where
  | command (i : Instr)
  | reserved (why : Reserved)
  deriving DecidableEq, Repr

/-- The operands of the selected command, taken from the payload (R72, R74). -/
def withOperands (data : U128) : Selected → Decoded
  | .nop => .command .nop
  | .init32 => .command (.init32 (seedField data))
  | .blk32 => .command (.blk32 (lanes 4 data))
  | .tail32 n => .command (.tail32 (lanes n data))
  | .fin32 => .command .fin32
  | .init128 => .command (.init128 (seedField data))
  | .blk128 => .command (.blk128 (lanes 16 data))
  | .tail128 n => .command (.tail128 (lanes n data))
  | .fin128 => .command .fin128
  | .reserved why => .reserved why

/-- The decoder, total on every beat. -/
def decode (b : Beat) : Decoded := withOperands b.data (decodeOp b.op)

/-! ### The encoder -/

/-- The number whose little-endian bytes are listed, first byte least significant (20_memory.md R52). -/
def leNat : List Byte → Nat
  | [] => 0
  | b :: bs => b.toNat + 256 * leNat bs

/-- A payload with the bytes in lanes 0 upward and zero above them (R78). -/
def packLanes (bytes : List Byte) : U128 := BitVec.ofNat 128 (leNat bytes)

/-- The opcode byte of a command: the encoder of R76. -/
def opcodeOf : Instr → Byte
  | .nop => 0x00
  | .init32 _ => 0x10
  | .blk32 _ => 0x20
  | .tail32 bytes => BitVec.ofNat 8 (0x30 + bytes.length)
  | .fin32 => 0x40
  | .init128 _ => 0x90
  | .blk128 _ => 0xA0
  | .tail128 bytes => BitVec.ofNat 8 (0xB0 + bytes.length)
  | .fin128 => 0xC0

/-- The payload the assembler writes: the seed in bits 31:0 or the bytes from lane 0 up, zero elsewhere (R78). -/
def payloadOf : Instr → U128
  | .nop => 0
  | .init32 seed => seed.setWidth 128
  | .blk32 bytes => packLanes bytes
  | .tail32 bytes => packLanes bytes
  | .fin32 => 0
  | .init128 seed => seed.setWidth 128
  | .blk128 bytes => packLanes bytes
  | .tail128 bytes => packLanes bytes
  | .fin128 => 0

/-- The beat of a command (R76, R78). -/
def encode (i : Instr) : Beat := { op := opcodeOf i, data := payloadOf i }

/-! ### The opcode table's numbering -/

/-- The beat whose bits are `w`, numbered as spec/opcode_table.json numbers them: the first byte of a beat is its opcode,
bits 7:0 of `w`, and the payload's bit `j` is bit `8 + j`. Bits at or above `nbits` are zero. DEDUCED (log 2). -/
def beatOfTableWord (nbits w : Nat) : Beat :=
  let v := w % 2 ^ nbits
  { op := BitVec.ofNat 8 v, data := BitVec.ofNat 128 (v / 256) }

/-- The command the decoder reads from a table word, none where the byte is reserved. -/
def decodeTableWord (nbits w : Nat) : Option Instr :=
  match decode (beatOfTableWord nbits w) with
  | .command i => some i
  | .reserved _ => none

end Sys2Proof
end

