-- ==== Sys2Proof/Machine/State.lean ====
section
/-! DEFINITION. The architectural state (10_state.md R20), its value after reset (R38), and the reasons a step can stop. -/

namespace Sys2Proof.Machine

open Sys2Proof

/-- The phase of an engine, the four values of `PH32` and `PH128` (10_state.md R23, R27; log 6). -/
inductive Phase where
  /-- code 0: no `INIT` since reset -/
  | idle
  /-- code 1: a message is open -/
  | absorb
  /-- code 2: the tail has been absorbed -/
  | tailed
  /-- code 3: `FIN` has completed -/
  | done
  deriving DecidableEq, Repr

/-- The cause of the first fault, the three values of `ECODE` (10_state.md R29, 60_exceptions.md R211; log 6). -/
inductive Cause where
  /-- code 0: no fault since reset -/
  | noFault
  /-- code 1: a reserved opcode byte -/
  | illegalOp
  /-- code 2: a command out of order for its engine's phase -/
  | sequence
  deriving DecidableEq, Repr

/-- A move of the host on the command port (70_reset_and_hazards.md R245, R251). There is no move that changes or
withdraws a beat that waits: it is one `present` until the edge that accepts it (log 4). -/
inductive Move where
  /-- one edge at which no beat is presented, `cmd_valid` 0; the values then on `cmd_op` and `cmd_data` are ignored -/
  | quiet (values : Beat)
  /-- a beat is presented, and held unchanged at every edge until one accepts it -/
  | present (b : Beat)
  deriving DecidableEq, Repr

/-- The ten registers of 10_state.md R20; whether the block is still held by reset; and in `rst` and `port` what the host
will do at the coming edges. -/
structure State where
  /-- `H32`, accumulator of E32 (R21) -/
  h32 : U32
  /-- `LEN32`, bytes absorbed by E32 modulo 2^32 (R22) -/
  len32 : U32
  /-- `PH32`, phase of E32 (R23) -/
  ph32 : Phase
  /-- `H1`, first lane of E128 (R24) -/
  h1 : U64
  /-- `H2`, second lane of E128 (R25) -/
  h2 : U64
  /-- `LEN128`, bytes absorbed by E128 modulo 2^64 (R26) -/
  len128 : U64
  /-- `PH128`, phase of E128 (R27) -/
  ph128 : Phase
  /-- `ERR`, the sticky fault flag (R28) -/
  err : Bool
  /-- `ECODE`, cause of the first fault (R29) -/
  ecode : Cause
  /-- `EOP`, opcode byte of the first fault (R30) -/
  eop : Byte
  /-- No register of R20, part of the command port: the last edge had `rst` 1, so that `cmd_ready` is 0 until an edge with
  `rst` 0 is past (70_reset_and_hazards.md R240; log 4) -/
  held : Bool
  /-- The model's own field: `rst` at the coming edges, next edge first, 0 after the list. DESIGN CHOICE (log 1). -/
  rst : List Bool
  /-- The model's own field: the moves of the host on the command port, next one first, nothing presented after the list.
  DESIGN CHOICE (log 1). -/
  port : List Move
  deriving DecidableEq, Repr

/-- The reset state: every register at its reset value (10_state.md R38), and the first edge with `rst` 0 past, so that the
block accepts (70_reset_and_hazards.md R240; log 4). The host has presented nothing (log 1). -/
def State.reset : State where
  h32 := 0
  len32 := 0
  ph32 := .idle
  h1 := 0
  h2 := 0
  len128 := 0
  ph128 := .idle
  err := false
  ecode := .noFault
  eop := 0
  held := false
  rst := []
  port := []

/-- The faults at which the machine would stop: none. `IllegalOp` and `Sequence` set the fault registers and the block
goes on accepting beats (60_exceptions.md R215, R216), so they are next states (log 8). -/
inductive Fault : Type
  deriving DecidableEq, Repr

/-- The refusals of the model. -/
inductive Refusal where
  /-- Raised by `exec` for a command that has no meaning yet (safe); no arm of `exec` raises it. -/
  | notModelled (mnemonic : String)
  deriving DecidableEq, Repr

/-- A step's answer. -/
abbrev Answer := Host.Outcome State Fault Refusal

end Sys2Proof.Machine
end

