-- ==== Sys2Proof/Machine/Flags.lean ====
section
/-! DEFINITION. Codes of the small registers, the status word, the valid flags and the output ports
(10_state.md R23, R29, R31, R32, R34), and which phase admits which command (R33). -/

namespace Sys2Proof.Machine

open Sys2Proof

/-- The code of a phase (10_state.md R23, R27). -/
def phaseCode : Phase → BitVec 2
  | .idle => 0
  | .absorb => 1
  | .tailed => 2
  | .done => 3

/-- The code of a fault cause (10_state.md R29). -/
def causeCode : Cause → BitVec 2
  | .noFault => 0
  | .illegalOp => 1
  | .sequence => 2

/-- A block or a tail is legal in this phase: ABSORB only (10_state.md R33). -/
def absorbs : Phase → Bool
  | .idle => false
  | .absorb => true
  | .tailed => false
  | .done => false

/-- A finish is legal in this phase: ABSORB or TAILED (10_state.md R33). -/
def finishes : Phase → Bool
  | .idle => false
  | .absorb => true
  | .tailed => true
  | .done => false

/-- The command is legal in its engine's phase; the other engine's phase is not consulted (60_exceptions.md R213). -/
def inOrder (i : Instr) (ph32 ph128 : Phase) : Bool :=
  match i with
  | .nop => true
  | .init32 _ => true
  | .blk32 _ => absorbs ph32
  | .tail32 _ => absorbs ph32
  | .fin32 => finishes ph32
  | .init128 _ => true
  | .blk128 _ => absorbs ph128
  | .tail128 _ => absorbs ph128
  | .fin128 => finishes ph128

/-- The port `status`, `{EOP, 0, ECODE, ERR, PH128, PH32}` (R31). -/
def status (s : State) : BitVec 16 :=
  s.eop ++ 0#1 ++ causeCode s.ecode ++ BitVec.ofBool s.err ++ phaseCode s.ph128 ++ phaseCode s.ph32

/-- The port `dig32`, whatever the phase (R32). -/
def dig32 (s : State) : U32 := s.h32

/-- The flag `dig32_valid` (R34). -/
def dig32Valid (s : State) : Bool := decide (s.ph32 = .done) && !s.err

/-- The port `dig128_h1`, whatever the phase (R32). -/
def dig128H1 (s : State) : U64 := s.h1

/-- The port `dig128_h2`, whatever the phase (R32). -/
def dig128H2 (s : State) : U64 := s.h2

/-- The port `dig128 = {H1, H2}` (R32, 42_x64_128_engine.md R175). -/
def dig128 (s : State) : U128 := s.h1 ++ s.h2

/-- The flag `dig128_valid` (R34). -/
def dig128Valid (s : State) : Bool := decide (s.ph128 = .done) && !s.err

end Sys2Proof.Machine
end

