-- ==== Sys2Proof/Machine/Ops.lean ====
section
/-! DEFINITION. The shared operations: writing an engine's registers, taking a fault and discarding after it
(60_exceptions.md R214 to R216), reset (70_reset_and_hazards.md R240), and sampling the command port (R244). -/

namespace Sys2Proof.Machine

open Sys2Proof

/-! ### Register writes: all writes of a command together (20_memory.md R58) -/

/-- Write the registers of E32. -/
def writeE32 (h len : U32) (ph : Phase) (s : State) : State := { s with h32 := h, len32 := len, ph32 := ph }

/-- Write the registers of E128. -/
def writeE128 (lanes : U64 × U64) (len : U64) (ph : Phase) (s : State) : State :=
  { s with h1 := lanes.1, h2 := lanes.2, len128 := len, ph128 := ph }

/-! ### Faults -/

/-- Fault entry: `ERR`, `ECODE`, `EOP` and nothing else (60_exceptions.md R215). There is no return from it; only
`resetRegisters` leaves the faulted state (R217). -/
def raiseFault (c : Cause) (op : Byte) (s : State) : State := { s with err := true, ecode := c, eop := op }

/-- The first check of every beat: with `ERR = 1` it is accepted and discarded (60_exceptions.md R214, R216). -/
def unlessFaulted (s t : State) : Answer := .next (if s.err then s else t)

/-- A command that its engine's phase may forbid: `ERR` first, then the phase (60_exceptions.md R213, R214). -/
def sequenced (legal : Bool) (op : Byte) (s t : State) : Answer :=
  unlessFaulted s (if legal then t else raiseFault .sequence op s)

/-- A beat whose opcode byte is reserved (60_exceptions.md R212): neither phase is consulted. -/
def illegalBeat (op : Byte) (s : State) : Answer := unlessFaulted s (raiseFault .illegalOp op s)

/-! ### Reset and the command port -/

/-- Reset: every register takes its reset value and the block is held until an edge with `rst` 0 is past; what the host does
is not the block's to change (70_reset_and_hazards.md R240). -/
def resetRegisters (s : State) : State := { State.reset with held := true, rst := s.rst, port := s.port }

/-- The block is no longer held by reset. -/
def release (s : State) : State := { s with held := false }

/-- Replace what the host will do. -/
def withInput (r : List Bool) (p : List Move) (s : State) : State := { s with rst := r, port := p }

/-- `rst` at the next edge. -/
def nextRst (s : State) : Bool := s.rst.headD false

/-- The port `cmd_ready` before the next edge, no command being in progress: 0 while `rst` is 1 and until the first edge with
`rst` 0 is past (R240). It does not look at what the host presents (R245). -/
def cmdReady (s : State) : Bool := !nextRst s && !s.held

/-- The beat that the next edge accepts: `rst = 0`, `cmd_valid = 1` and `cmd_ready = 1` (R244). -/
def accepted (s : State) : Option Beat :=
  match s.port with
  | [] => none
  | .quiet _ :: _ => none
  | .present b :: _ => if cmdReady s then some b else none

/-- The moves still to come after an edge that accepts nothing: a beat that is presented waits (R245). -/
def afterWaiting : List Move → List Move
  | [] => []
  | .quiet _ :: rest => rest
  | .present b :: rest => .present b :: rest

/-- An edge that accepts nothing is past. -/
def pastEdge (s : State) : State := withInput s.rst.tail (afterWaiting s.port) s

/-- An edge that accepts the presented beat is past. -/
def pastBeat (s : State) : State := withInput s.rst.tail s.port.tail s

/-- The block about to accept the beat: out of reset, not held, and the host presents it next. -/
def presenting (b : Beat) (s : State) : State := withInput (false :: s.rst) (.present b :: s.port) (release s)

end Sys2Proof.Machine
end

