-- ==== Sys2Proof/Machine/Control.lean ====
section
/-! DEFINITION. The control command (43_control.md). -/

namespace Sys2Proof.Machine

open Sys2Proof

/-- `NOP`: no register is written, in every phase, with or without a fault (R200). -/
def execNop (s : State) : Answer := .next s

end Sys2Proof.Machine
end

