-- ==== Sys2Proof/Machine/Datapath.lean ====
section
/-! DEFINITION. The datapath functions (40_datapath_primitives.md): rotation, xor-shift, the k-mixes, the block rounds and
the finalizers. `^^^`, `+`, `*` on words are R101 to R104: bitwise, and modulo 2^32 or 2^64. -/

namespace Sys2Proof.Machine

open Sys2Proof

/-! ### Primitives -/

/-- `rotl32(x, r)`, circular left rotate, for `0 < r < 32` (R105). -/
def rotl32 (x : U32) (r : Nat) : U32 := (x <<< r) ||| (x >>> (32 - r))

/-- `rotl64(x, r)`, circular left rotate, for `0 < r < 64` (R106). -/
def rotl64 (x : U64) (r : Nat) : U64 := (x <<< r) ||| (x >>> (64 - r))

/-- `xsr_32(x, s) = x ^ (x >> s)` with the logical shift (R107, R108). -/
def xsr32 (x : U32) (s : Nat) : U32 := x ^^^ (x >>> s)

/-- `xsr_64(x, s) = x ^ (x >> s)` with the logical shift (R107, R108). -/
def xsr64 (x : U64) (s : Nat) : U64 := x ^^^ (x >>> s)

/-- `zext_64` of a 32-bit value (R109). -/
def zext64 (x : U32) : U64 := x.setWidth 64

/-! ### Constants of E32 (R110) -/

def c1w32 : U32 := 0xcc9e2d51
def c2w32 : U32 := 0x1b873593
def m32 : U32 := 5
def n32 : U32 := 0xe6546b64
def f1w32 : U32 := 0x85ebca6b
def f2w32 : U32 := 0xc2b2ae35

/-! ### Constants of E128 (R111) -/

def c1w64 : U64 := 0x87c37b91114253d5
def c2w64 : U64 := 0x4cf5ad432745937f
def m64 : U64 := 5
def n1w64 : U64 := 0x52dce729
def n2w64 : U64 := 0x38495ab5
def f1w64 : U64 := 0xff51afd7ed558ccd
def f2w64 : U64 := 0xc4ceb9fe1a85ec53

/-! ### Chains of E32 -/

/-- `KMIX32` (R112). -/
def kmix32 (k : U32) : U32 := rotl32 (k * c1w32) 15 * c2w32

/-- `HROUND32` (R113): `m` is an already mixed word. -/
def hround32 (h m : U32) : U32 := rotl32 (h ^^^ m) 13 * m32 + n32

/-- `FMIX32` (R114); the length is XORed in before it. -/
def fmix32 (h : U32) : U32 :=
  let s2 := xsr32 h 16 * f1w32
  let s4 := xsr32 s2 13 * f2w32
  xsr32 s4 16

/-! ### Chains of E128 -/

/-- `KMIX1_64`, the k-mix of lane 1 (R115). -/
def kmix1w64 (k : U64) : U64 := rotl64 (k * c1w64) 31 * c2w64

/-- `KMIX2_64`, the k-mix of lane 2: multipliers exchanged, rotation 33 (R116). -/
def kmix2w64 (k : U64) : U64 := rotl64 (k * c2w64) 33 * c1w64

/-- `BLKROUND128` (R117): lane 1 adds the old `h2`, lane 2 then adds the new `h1` (42_x64_128_engine.md R177). -/
def blkround128 (h1 h2 k1 k2 : U64) : U64 × U64 :=
  let h1' := (rotl64 (h1 ^^^ kmix1w64 k1) 27 + h2) * m64 + n1w64
  let h2' := (rotl64 (h2 ^^^ kmix2w64 k2) 31 + h1') * m64 + n2w64
  (h1', h2')

/-- `FMIX64` (R118). -/
def fmix64 (x : U64) : U64 :=
  let s2 := xsr64 x 33 * f1w64
  let s4 := xsr64 s2 33 * f2w64
  xsr64 s4 33

/-- `FINAL128` (R119): each second addition reads the sum just made. -/
def final128 (h1 h2 len : U64) : U64 × U64 :=
  let a2 := h2 ^^^ len
  let b1 := (h1 ^^^ len) + a2
  let b2 := a2 + b1
  let c2 := fmix64 b2
  let d1 := fmix64 b1 + c2
  (d1, c2 + d1)

end Sys2Proof.Machine
end

