-- ==== Sys2Proof/Machine/Operands.lean ====
section
/-! DEFINITION. Operand forms: little-endian assembly (20_memory.md R52) and the zero padding of a tail (R57). -/

namespace Sys2Proof.Machine

open Sys2Proof

/-- `LE32` of the bytes, lowest offset first (R52). -/
def le32 (bytes : List Byte) : U32 := BitVec.ofNat 32 (leNat bytes)

/-- `LE64` of the bytes, lowest offset first (R52). -/
def le64 (bytes : List Byte) : U64 := BitVec.ofNat 64 (leNat bytes)

/-- The bytes `TB[0] .. TB[w-1]` of a tail: lanes at or above the byte count are zero (R57). -/
def padLanes (w : Nat) (bytes : List Byte) : List Byte := bytes ++ List.replicate (w - bytes.length) 0

/-- The word of a `BLK32` (41_x86_32_engine.md R142). -/
def blk32Word (bytes : List Byte) : U32 := le32 bytes

/-- The zero-padded word of a `TAIL32` (R143). -/
def tail32Word (bytes : List Byte) : U32 := le32 (padLanes 4 bytes)

/-- The words `(k1, k2)` of a `BLK128`: lanes 0 to 7 and 8 to 15 (42_x64_128_engine.md R172). -/
def blk128Words (bytes : List Byte) : U64 × U64 := (le64 (bytes.take 8), le64 (bytes.drop 8))

/-- The zero-padded words `(k1, k2)` of a `TAIL128` (R173, R178). -/
def tail128Words (bytes : List Byte) : U64 × U64 := blk128Words (padLanes 16 bytes)

end Sys2Proof.Machine
end

