-- ==== Sys2Proof/Machine/E128.lean ====
section
/-! DEFINITION. The commands of engine E128 (42_x64_128_engine.md R171 to R174). -/

namespace Sys2Proof.Machine

open Sys2Proof

/-- `INIT128 seed`: both lanes the zero-extended seed; legal in every phase (R171). -/
def execInit128 (seed : U32) (s : State) : Answer :=
  unlessFaulted s (writeE128 (zext64 seed, zext64 seed) 0 .absorb s)

/-- `BLK128`: one full block; the phase stays ABSORB (R172). -/
def execBlk128 (bytes : List Byte) (s : State) : Answer :=
  let k := blk128Words bytes
  sequenced (absorbs s.ph128) (opcodeOf (.blk128 bytes)) s
    (writeE128 (blkround128 s.h1 s.h2 k.1 k.2) (s.len128 + 16) s.ph128 s)

/-- `TAIL128`: each lane takes its own mixed word, nothing crosses (R173). -/
def execTail128 (bytes : List Byte) (s : State) : Answer :=
  let k := tail128Words bytes
  sequenced (absorbs s.ph128) (opcodeOf (.tail128 bytes)) s
    (writeE128 (s.h1 ^^^ kmix1w64 k.1, s.h2 ^^^ kmix2w64 k.2) (s.len128 + BitVec.ofNat 64 bytes.length) .tailed s)

/-- `FIN128`: the finalization of both lanes; `LEN128` is kept (R174). -/
def execFin128 (s : State) : Answer :=
  sequenced (finishes s.ph128) (opcodeOf .fin128) s
    (writeE128 (final128 s.h1 s.h2 s.len128) s.len128 .done s)

end Sys2Proof.Machine
end

