-- ==== Sys2Proof/Machine/E32.lean ====
section
/-! DEFINITION. The commands of engine E32 (41_x86_32_engine.md R141 to R144). -/

namespace Sys2Proof.Machine

open Sys2Proof

/-- `INIT32 seed`, legal in every phase (R141). -/
def execInit32 (seed : U32) (s : State) : Answer := unlessFaulted s (writeE32 seed 0 .absorb s)

/-- `BLK32`: one full block; the phase stays ABSORB (R142). -/
def execBlk32 (bytes : List Byte) (s : State) : Answer :=
  sequenced (absorbs s.ph32) (opcodeOf (.blk32 bytes)) s
    (writeE32 (hround32 s.h32 (kmix32 (blk32Word bytes))) (s.len32 + 4) s.ph32 s)

/-- `TAIL32`: the k-mix and the XOR, with no block round (R143). -/
def execTail32 (bytes : List Byte) (s : State) : Answer :=
  sequenced (absorbs s.ph32) (opcodeOf (.tail32 bytes)) s
    (writeE32 (s.h32 ^^^ kmix32 (tail32Word bytes)) (s.len32 + BitVec.ofNat 32 bytes.length) .tailed s)

/-- `FIN32`: the length XORed in, then the finalizer; `LEN32` is kept (R144). -/
def execFin32 (s : State) : Answer :=
  sequenced (finishes s.ph32) (opcodeOf .fin32) s (writeE32 (fmix32 (s.h32 ^^^ s.len32)) s.len32 .done s)

end Sys2Proof.Machine
end

