-- ==== Sys2Proof/Machine/Dispatch.lean ====
section
/-! DEFINITION. The dispatch: one arm per command, each one call of its meaning. -/

namespace Sys2Proof.Machine

open Sys2Proof

/-- One accepted command (00_scope.md R13). -/
def exec (i : Instr) (s : State) : Host.Outcome State Fault Refusal :=
  match i with
  | .nop => Sys2Proof.Machine.execNop s
  | .init32 seed => Sys2Proof.Machine.execInit32 seed s
  | .blk32 bytes => Sys2Proof.Machine.execBlk32 bytes s
  | .tail32 bytes => Sys2Proof.Machine.execTail32 bytes s
  | .fin32 => Sys2Proof.Machine.execFin32 s
  | .init128 seed => Sys2Proof.Machine.execInit128 seed s
  | .blk128 bytes => Sys2Proof.Machine.execBlk128 bytes s
  | .tail128 bytes => Sys2Proof.Machine.execTail128 bytes s
  | .fin128 => Sys2Proof.Machine.execFin128 s

end Sys2Proof.Machine
end

