-- ==== Sys2Proof/Machine/Accept.lean ====
section
/-! DEFINITION. One accepted beat and one edge of the ready block (60_exceptions.md R214, 70_reset_and_hazards.md R240,
R244). -/

namespace Sys2Proof.Machine

open Sys2Proof

/-- An accepted beat: its command runs, or its reserved opcode byte faults (30_encoding.md R76, 60_exceptions.md R212).
Every meaning and `illegalBeat` check `ERR` first. -/
def acceptBeat (b : Beat) (s : State) : Answer :=
  match decode b with
  | .command i => exec i s
  | .reserved _ => illegalBeat b.op s

/-- One edge at which no command is in progress: reset; an accepted beat; or neither, and then the block holds its
registers (60_exceptions.md R223) and is no longer held by reset (70_reset_and_hazards.md R240). -/
def takeEdge (s : State) : Answer :=
  if nextRst s then .next (pastEdge (resetRegisters s))
  else
    match accepted s with
    | some b => acceptBeat b (pastBeat s)
    | none => .next (pastEdge (release s))

end Sys2Proof.Machine
end

