-- ==== Sys2Proof/Machine/Step.lean ====
section
/-! DEFINITION. The step: one rising edge at which no command is in progress, a command taking effect at the edge that
accepts it (00_scope.md R13, 70_reset_and_hazards.md R248: "one accepted command is one step"; log 3). -/

namespace Sys2Proof.Machine

open Sys2Proof

/-- One step: one edge. After the end of its lists the host drives `rst` 0 and presents nothing (log 10). -/
def step (s : State) : Host.Outcome State Fault Refusal := takeEdge s

/-- The state about to accept the table's word. The block fetches nothing: its command is what the host presents next
(10_state.md R33, 20_memory.md R62; log 1). -/
def State.withFetchWord (s : State) (nbits w : Nat) : State := presenting (beatOfTableWord nbits w) s

end Sys2Proof.Machine
end

