-- ==== Sys2Proof/Machine/Reference.lean ====
section
/-! DEFINITION. The functions the engines compute (41_x86_32_engine.md R140, 42_x64_128_engine.md R170), the host's split
of a message (20_memory.md R54, R64) and the pseudo-instructions made of it (30_encoding.md R79, R80). -/

namespace Sys2Proof.Machine

open Sys2Proof

/-- `MemRead(a, n)` of a message (00_scope.md R11). -/
def memRead (M : List Byte) (a n : Nat) : List Byte := (M.drop a).take n

/-! ### The split -/

/-- The full blocks of `w` bytes, in ascending offset order (20_memory.md R54). -/
def fullBlocks (w : Nat) (M : List Byte) : List (List Byte) :=
  (List.range (M.length / w)).map fun i => memRead M (w * i) w

/-- The last `L mod w` bytes (20_memory.md R54). -/
def tailBytes (w : Nat) (M : List Byte) : List Byte := M.drop (w * (M.length / w))

/-- `blocks32(M)` (20_memory.md R64). -/
def blocks32 (M : List Byte) : List U32 := (fullBlocks 4 M).map le32

/-- `blocks128(M)` (20_memory.md R64). -/
def blocks128 (M : List Byte) : List (U64 × U64) := (fullBlocks 16 M).map blk128Words

/-! ### The hash functions -/

/-- `hash32(M, s)` (41_x86_32_engine.md R140). -/
def hash32 (M : List Byte) (s : U32) : U32 :=
  let h := (blocks32 M).foldl (fun h k => hround32 h (kmix32 k)) s
  let h := h ^^^ kmix32 (tail32Word (tailBytes 4 M))
  fmix32 (h ^^^ BitVec.ofNat 32 M.length)

/-- `hash128(M, s)`, lanes `(h1, h2)` (42_x64_128_engine.md R170). -/
def hash128 (M : List Byte) (s : U32) : U64 × U64 :=
  let h := (blocks128 M).foldl (fun h k => blkround128 h.1 h.2 k.1 k.2) (zext64 s, zext64 s)
  let k := tail128Words (tailBytes 16 M)
  final128 (h.1 ^^^ kmix1w64 k.1) (h.2 ^^^ kmix2w64 k.2) (BitVec.ofNat 64 M.length)

/-! ### The pseudo-instructions -/

/-- `HASH32 seed, bytes`: the tail is always sent (30_encoding.md R79). -/
def expandHash32 (seed : U32) (M : List Byte) : List Instr :=
  .init32 seed :: ((fullBlocks 4 M).map .blk32 ++ [.tail32 (tailBytes 4 M), .fin32])

/-- `HASH128 seed, bytes`: the tail is always sent (30_encoding.md R80). -/
def expandHash128 (seed : U32) (M : List Byte) : List Instr :=
  .init128 seed :: ((fullBlocks 16 M).map .blk128 ++ [.tail128 (tailBytes 16 M), .fin128])

/-! ### A sequence of accepted commands -/

/-- The command belongs to E32 (10_state.md R37). -/
def isE32 : Instr → Bool
  | .nop => false
  | .init32 _ => true
  | .blk32 _ => true
  | .tail32 _ => true
  | .fin32 => true
  | .init128 _ => false
  | .blk128 _ => false
  | .tail128 _ => false
  | .fin128 => false

/-- The command belongs to E128 (10_state.md R37). -/
def isE128 : Instr → Bool
  | .nop => false
  | .init32 _ => false
  | .blk32 _ => false
  | .tail32 _ => false
  | .fin32 => false
  | .init128 _ => true
  | .blk128 _ => true
  | .tail128 _ => true
  | .fin128 => true

/-- Commands accepted one after the other, each seeing the registers the one before it left (20_memory.md R60). -/
def execAll : List Instr → State → Answer
  | [], s => .next s
  | i :: rest, s =>
    match exec i s with
    | .next t => execAll rest t
    | .fault r => .fault r
    | .refused r => .refused r

end Sys2Proof.Machine
end

