-- ==== Sys2Proof/Machine/Assembler.lean ====
section
/-! DEFINITION. The assembler notation (30_encoding.md R78 to R81): the boundary at which a malformed seed or tail is
rejected (60_exceptions.md R222). It is the host's tool; the step does not use it. -/

namespace Sys2Proof.Machine

open Sys2Proof

/-- Why the assembler rejects a line (R78). -/
inductive AsmError where
  /-- the first word is no command -/
  | unknownCommand
  /-- a word that is neither the seed nor the byte the grammar asks for, or one too few or too many of them -/
  | badOperand
  /-- a seed outside 0 to 2^32 - 1 -/
  | seedRange
  /-- a block without its exact number of bytes, or a tail with more than 3 or 15 -/
  | byteCount
  deriving DecidableEq, Repr

/-- What the assembler makes of a line or a script. -/
abbrev Asm (α : Type) := Except AsmError α

/-! ### Words of a line -/

/-- White space inside a line. DESIGN CHOICE: the grammar does not list it (log 11). -/
def isBlank (c : Char) : Bool := c == ' ' || c == '\t' || c == '\r'

/-- Put a collected word, written backwards, before the other words. -/
def pushWord (word : List Char) (rest : List (List Char)) : List (List Char) :=
  if word.isEmpty then rest else word.reverse :: rest

/-- The words of a line: separated by white space, a comma a word of its own, nothing after `;` (R78, R79). -/
def wordsOf : List Char → List Char → List (List Char)
  | [], word => pushWord word []
  | c :: cs, word =>
    if c == ';' then pushWord word []
    else if c == ',' then pushWord word ([c] :: wordsOf cs [])
    else if isBlank c then pushWord word (wordsOf cs [])
    else wordsOf cs (c :: word)

/-- The lines of a script. -/
def linesOf : List Char → List Char → List (List Char)
  | [], line => [line.reverse]
  | c :: cs, line => if c == '\n' then line.reverse :: linesOf cs [] else linesOf cs (c :: line)

/-! ### Operands -/

/-- A `hexdigit`, in either case (00_scope.md R7). -/
def hexDigit (c : Char) : Option Nat :=
  let n := c.toNat
  if 48 ≤ n ∧ n ≤ 57 then some (n - 48)
  else if 97 ≤ n ∧ n ≤ 102 then some (n - 87)
  else if 65 ≤ n ∧ n ≤ 70 then some (n - 55)
  else none

/-- A decimal digit. -/
def decDigit (c : Char) : Option Nat :=
  let n := c.toNat
  if 48 ≤ n ∧ n ≤ 57 then some (n - 48) else none

/-- The number that digits of a base write after the number so far. -/
def readDigits (base : Nat) (digit : Char → Option Nat) : List Char → Nat → Option Nat
  | [], n => some n
  | c :: cs, n =>
    match digit c with
    | some d => readDigits base digit cs (base * n + d)
    | none => none

/-- `u32`: `0x` and 1 to 8 hexadecimal digits, or a decimal numeral up to 4294967295 (R78). DESIGN CHOICE: a decimal
numeral may have any number of leading zeros, on which the grammar is silent (log 11). -/
def parseU32 : List Char → Asm U32
  | '0' :: 'x' :: ds =>
    match readDigits 16 hexDigit ds 0 with
    | none => .error .badOperand
    | some n => if ds.isEmpty then .error .badOperand else if 2 ^ 32 ≤ n then .error .seedRange
      else if ds.length ≤ 8 then .ok (BitVec.ofNat 32 n) else .error .badOperand
  | ds =>
    match readDigits 10 decDigit ds 0 with
    | none => .error .badOperand
    | some n => if ds.isEmpty then .error .badOperand else if 2 ^ 32 ≤ n then .error .seedRange else .ok (BitVec.ofNat 32 n)

/-- `byte`: two hexadecimal digits (R78). -/
def parseByte : List Char → Asm Byte
  | [a, b] =>
    match hexDigit a, hexDigit b with
    | some x, some y => .ok (BitVec.ofNat 8 (16 * x + y))
    | _, _ => .error .badOperand
  | _ => .error .badOperand

/-- A list of bytes in message order (R78). -/
def parseBytes : List (List Char) → Asm (List Byte)
  | [] => .ok []
  | w :: ws =>
    match parseByte w, parseBytes ws with
    | .ok b, .ok bs => .ok (b :: bs)
    | .error e, _ => .error e
    | _, .error e => .error e

/-! ### Lines and scripts -/

/-- A command without operands. -/
def plain (i : Instr) : List (List Char) → Asm (List Instr)
  | [] => .ok [i]
  | _ => .error .badOperand

/-- A command whose operand is a seed. -/
def seeded (mk : U32 → Instr) : List (List Char) → Asm (List Instr)
  | [w] =>
    match parseU32 w with
    | .ok seed => .ok [mk seed]
    | .error e => .error e
  | _ => .error .badOperand

/-- A command whose operands are bytes: their number must be one that the command can carry. -/
def carrying (mk : List Byte → Instr) (ws : List (List Char)) : Asm (List Instr) :=
  match parseBytes ws with
  | .ok bs => if (mk bs).wf then .ok [mk bs] else .error .byteCount
  | .error e => .error e

/-- A pseudo-instruction, `seed, bytes` (R79, R80). -/
def expanding (mk : U32 → List Byte → List Instr) : List (List Char) → Asm (List Instr)
  | [w] =>
    match parseU32 w with
    | .ok seed => .ok (mk seed [])
    | .error e => .error e
  | w :: comma :: ws =>
    if comma = [','] then
      match parseU32 w, parseBytes ws with
      | .ok seed, .ok bs => .ok (mk seed bs)
      | .error e, _ => .error e
      | _, .error e => .error e
    else .error .badOperand
  | [] => .error .badOperand

/-- The commands of one line's words: none for a blank line, one for a command, an expansion for a pseudo-instruction. -/
def assembleWords : List (List Char) → Asm (List Instr)
  | [] => .ok []
  | w :: ws =>
    if w = ['N', 'O', 'P'] then plain .nop ws
    else if w = ['I', 'N', 'I', 'T', '3', '2'] then seeded .init32 ws
    else if w = ['B', 'L', 'K', '3', '2'] then carrying .blk32 ws
    else if w = ['T', 'A', 'I', 'L', '3', '2'] then carrying .tail32 ws
    else if w = ['F', 'I', 'N', '3', '2'] then plain .fin32 ws
    else if w = ['I', 'N', 'I', 'T', '1', '2', '8'] then seeded .init128 ws
    else if w = ['B', 'L', 'K', '1', '2', '8'] then carrying .blk128 ws
    else if w = ['T', 'A', 'I', 'L', '1', '2', '8'] then carrying .tail128 ws
    else if w = ['F', 'I', 'N', '1', '2', '8'] then plain .fin128 ws
    else if w = ['H', 'A', 'S', 'H', '3', '2'] then expanding expandHash32 ws
    else if w = ['H', 'A', 'S', 'H', '1', '2', '8'] then expanding expandHash128 ws
    else .error .unknownCommand

/-- The commands of a list of lines, or the first line's error. -/
def assembleLines : List (List Char) → Asm (List Instr)
  | [] => .ok []
  | line :: rest =>
    match assembleWords (wordsOf line []), assembleLines rest with
    | .ok is, .ok js => .ok (is ++ js)
    | .error e, _ => .error e
    | _, .error e => .error e

/-- The commands of a script (R78). -/
def assemble (script : List Char) : Asm (List Instr) := assembleLines (linesOf script [])

/-- The beats of a script (R78). -/
def assembleBeats (script : List Char) : Asm (List Beat) := (assemble script).map (List.map encode)

end Sys2Proof.Machine
end

