-- ==== Sys2Proof/Config.lean ====
section
/-! DEFINITION. What an implementation fixes and the spec leaves open (00_scope.md R6): only the latencies. -/

namespace Sys2Proof

/-- The open parameter `LAT` of 70_reset_and_hazards.md R248, less one: `Config.lat k op` is how many clock edges after
the edge of acceptance the `k`-th accepted beat, of opcode byte `op`, completes at. The beat's number is an argument
because R248 lets a latency vary from one beat to the next. A free value: it has no body, so nothing can be proved of it,
and no rule of the step reads it (log 3). -/
opaque Config.lat : Nat → Byte → Nat

end Sys2Proof
end

