-- ==== Sys2Proof/Machine/Handshake.lean ====
section
/-! DEFINITION. The command port clock edge by clock edge (70_reset_and_hazards.md R240, R244, R248): what stands between
the edge of acceptance and the completion that the step takes as one. The step does not use this file (log 3). -/

namespace Sys2Proof.Machine

open Sys2Proof

/-- A command in progress. -/
structure InProgress where
  /-- the beat as sampled at the edge of acceptance (R244) -/
  beat : Beat
  /-- how many edges pass before the edge at which it completes -/
  left : Nat
  deriving DecidableEq, Repr

/-- The block between two clock edges. -/
structure Clocked where
  /-- the registers, and what the host will do at the coming edges -/
  regs : State
  /-- the command in progress -/
  busy : Option InProgress
  /-- how many beats have been accepted: the index of the free latency, no register of the block -/
  count : Nat
  deriving DecidableEq, Repr

/-- The block in the reset state. -/
def Clocked.reset : Clocked := { regs := State.reset, busy := none, count := 0 }

/-- The port `cmd_ready` before the next edge: 0 in reset, until the first edge after it, and while a command is in progress
(R240, R244). -/
def Clocked.ready (c : Clocked) : Bool := cmdReady c.regs && c.busy.isNone

/-- The registers after an accepted beat has completed. -/
def completed (b : Beat) (s : State) : State :=
  match acceptBeat b s with
  | .next t => t
  | .fault _ => s
  | .refused _ => s

/-- A beat is accepted that completes at the `k`-th edge after this one: at latency 1, `k = 0`, it completes at this edge,
else it is in progress (R244, R248). -/
def startFor (k : Nat) (b : Beat) (c : Clocked) : Clocked :=
  match k with
  | 0 => { regs := completed b c.regs, busy := none, count := c.count + 1 }
  | n + 1 => { regs := c.regs, busy := some { beat := b, left := n }, count := c.count + 1 }

/-- A beat is accepted: its latency is the free value (R248). -/
def startBeat (b : Beat) (c : Clocked) : Clocked := startFor (Config.lat c.count b.op) b c

/-- An edge that finds a command in progress: it completes, or waits on with no register written (R244). -/
def advance (p : InProgress) (c : Clocked) : Clocked :=
  match p.left with
  | 0 => { c with regs := completed p.beat c.regs, busy := none }
  | k + 1 => { c with busy := some { p with left := k } }

/-- One rising edge. Reset abandons the command in progress with no effect (R240); otherwise the command in progress goes
on, or a presented beat is accepted. A beat that is presented while a command is in progress waits unchanged (R245). -/
def clockEdge (c : Clocked) : Clocked :=
  if nextRst c.regs then { c with regs := pastEdge (resetRegisters c.regs), busy := none }
  else
    match c.busy with
    | some p => advance p { c with regs := pastEdge c.regs }
    | none =>
      match accepted c.regs with
      | some b => startBeat b { c with regs := pastBeat c.regs }
      | none => { c with regs := pastEdge (release c.regs) }

/-- A number of edges. -/
def clockEdges : Nat → Clocked → Clocked
  | 0, c => c
  | n + 1, c => clockEdges n (clockEdge c)

/-- The registers once the command in progress, if any, has completed: the state of the step. -/
def Clocked.settled (c : Clocked) : State :=
  match c.busy with
  | some p => completed p.beat c.regs
  | none => c.regs

/-- What the step is given of a stretch of edges. -/
structure Seen where
  /-- how many of the edges are steps -/
  steps : Nat
  /-- `rst` at those edges and after the stretch -/
  rst : List Bool
  /-- the moves of the host at those edges and after the stretch -/
  port : List Move
  deriving DecidableEq, Repr

/-- The move that an edge takes off the host's list when no command is in progress. -/
def takenMove (s : State) : List Move :=
  match s.port with
  | [] => []
  | .quiet values :: _ => [.quiet values]
  | .present b :: _ => if cmdReady s then [.present b] else []

/-- What the step is given of `n` edges: all but those out of reset that find a command in progress. -/
def seen : Nat → Clocked → Seen
  | 0, c => { steps := 0, rst := c.regs.rst, port := c.regs.port }
  | n + 1, c =>
    let later := seen n (clockEdge c)
    if c.busy.isSome && !nextRst c.regs then later
    else { steps := later.steps + 1, rst := nextRst c.regs :: later.rst, port := takenMove c.regs ++ later.port }

end Sys2Proof.Machine
end

