-- ==== Sys2Proof/Safety.lean ====
section
/-! DEFINITION. What claims call a coherent state, a finished message, a faulted block and a stretch without reset. -/

namespace Sys2Proof.Safety

open Sys2Proof Sys2Proof.Machine

/-- The opcode byte is reserved (30_encoding.md R75). -/
def isReserved (op : Byte) : Bool :=
  match decode { op := op, data := 0 } with
  | .command _ => false
  | .reserved _ => true

/-- The numbers of the reserved opcode bytes as R75's table lists them, row by row; the decoder does not use it. -/
abbrev reservedRows (n : Nat) : Prop :=
  (0x01 ≤ n ∧ n ≤ 0x0F) ∨
  ((0x11 ≤ n ∧ n ≤ 0x1F) ∨ (0x21 ≤ n ∧ n ≤ 0x2F) ∨ (0x41 ≤ n ∧ n ≤ 0x4F)) ∨
  (0x34 ≤ n ∧ n ≤ 0x3F) ∨
  (0x50 ≤ n ∧ n ≤ 0x7F) ∨
  (0x80 ≤ n ∧ n ≤ 0x8F) ∨
  ((0x91 ≤ n ∧ n ≤ 0x9F) ∨ (0xA1 ≤ n ∧ n ≤ 0xAF) ∨ (0xC1 ≤ n ∧ n ≤ 0xCF)) ∨
  (0xD0 ≤ n ∧ n ≤ 0xFF)

/-- The opcode byte is a command that these phases forbid (60_exceptions.md R213). -/
def isOutOfOrder (op : Byte) (ph32 ph128 : Phase) : Bool :=
  match decode { op := op, data := 0 } with
  | .command i => !inOrder i ph32 ph128
  | .reserved _ => false

/-- The fault record tells the truth about the first fault (10_state.md R28 to R30, 60_exceptions.md R211, R218): with
`ERR = 0` it is empty, and with `ERR = 1` the recorded opcode byte is one that raises the recorded cause in the phases the
block is frozen in. -/
abbrev faultRecordTrue (s : State) : Prop :=
  (s.err = false → s.ecode = .noFault ∧ s.eop = 0) ∧
  (s.err = true →
    (s.ecode = .illegalOp ∧ isReserved s.eop = true) ∨
    (s.ecode = .sequence ∧ isOutOfOrder s.eop s.ph32 s.ph128 = true))

/-- E32 in IDLE holds the reset values, and in ABSORB has absorbed whole blocks (10_state.md R22, R23, R38). -/
abbrev e32Coherent (s : State) : Prop :=
  (s.ph32 = .idle → s.h32 = 0 ∧ s.len32 = 0) ∧ (s.ph32 = .absorb → s.len32.toNat % 4 = 0)

/-- E128 in IDLE holds the reset values, and in ABSORB has absorbed whole blocks (10_state.md R26, R27, R38). -/
abbrev e128Coherent (s : State) : Prop :=
  (s.ph128 = .idle → s.h1 = 0 ∧ s.h2 = 0 ∧ s.len128 = 0) ∧ (s.ph128 = .absorb → s.len128.toNat % 16 = 0)

/-- A block still held by reset has every register at its reset value (70_reset_and_hazards.md R240). -/
abbrev heldInReset (s : State) : Prop :=
  s.held = true → s = withInput s.rst s.port { State.reset with held := true }

/-- The invariant of the block. -/
abbrev Inv (s : State) : Prop := faultRecordTrue s ∧ e32Coherent s ∧ e128Coherent s ∧ heldInReset s

/-- The end of a run of one message on E32 (70_reset_and_hazards.md R250). -/
abbrev finished32 (s : State) : Prop := s.ph32 = .done ∧ s.err = false

/-- The end of a run of one message on E128 (70_reset_and_hazards.md R250). -/
abbrev finished128 (s : State) : Prop := s.ph128 = .done ∧ s.err = false

/-- None of the next `k` edges is a reset. -/
def noReset (k : Nat) (s : State) : Bool := (s.rst.take k).all fun r => !r

/-- The ten registers of 10_state.md R20 are the same. -/
abbrev sameRegisters (s t : State) : Prop :=
  s.h32 = t.h32 ∧ s.len32 = t.len32 ∧ s.ph32 = t.ph32 ∧ s.h1 = t.h1 ∧ s.h2 = t.h2 ∧ s.len128 = t.len128 ∧
  s.ph128 = t.ph128 ∧ s.err = t.err ∧ s.ecode = t.ecode ∧ s.eop = t.eop

end Sys2Proof.Safety
end

