-- ==== Sys2Proof/Certificates/Slice0/Obligations.lean ====
section
/-! DEFINITION. The statements for the provers. `OBLIGATIONS.json` gives each its rules and its sentence. -/

open Sys2Proof Sys2Proof.Machine Sys2Proof.Safety

/-! ### Encoding -/

/-- R76: the encoder is the decoder's inverse, for every well-formed command with every operand. -/
def Obligations.DecodeOfEncodeIsTheCommand : Prop :=
  ∀ i : Instr, i.wf = true → decode (encode i) = .command i

/-- R76, R78, the other way round: a decoded command is well formed, and encoded again it has the opcode byte it was
decoded from and of the payload the bits its format names, all others zero. -/
def Obligations.EncodeOfDecodeKeepsTheUsedBits : Prop :=
  ∀ (b : Beat) (i : Instr), decode b = .command i →
    i.wf = true ∧ (encode i).op = b.op ∧
    (encode i).data.toNat = b.data.toNat % 2 ^
      (match i with
        | .nop => 0
        | .init32 _ => 32
        | .blk32 _ => 32
        | .tail32 bytes => 8 * bytes.length
        | .fin32 => 0
        | .init128 _ => 32
        | .blk128 _ => 128
        | .tail128 bytes => 8 * bytes.length
        | .fin128 => 0)

/-- R72: two beats of one opcode byte whose payloads agree on the bits of its format (31:0 for a seed or a `BLK32`, 127:0
for a `BLK128`, 8N-1:0 for a tail, none for the rest) have the same effect in every state. -/
def Obligations.UnusedPayloadBitsAreIgnored : Prop :=
  ∀ (op : Byte) (d d' : U128) (s : State),
    (op = 0x10 ∨ op = 0x20 ∨ op = 0x90 → d.toNat % 2 ^ 32 = d'.toNat % 2 ^ 32) →
    (op = 0xA0 → d = d') →
    (∀ n, n ≤ 3 → op = BitVec.ofNat 8 (0x30 + n) → d.toNat % 2 ^ (8 * n) = d'.toNat % 2 ^ (8 * n)) →
    (∀ n, n ≤ 15 → op = BitVec.ofNat 8 (0xB0 + n) → d.toNat % 2 ^ (8 * n) = d'.toNat % 2 ^ (8 * n)) →
    acceptBeat { op := op, data := d } s = acceptBeat { op := op, data := d' } s

/-- R73, R74: each row's match and mask select its command, with the seed `cmd_data[31:0]`, the byte count `cmd_op[3:0]`
and the byte lanes `cmd_data[8i+7:8i]` as its operands; a byte that no row selects is reserved, and the rows select 27
bytes. -/
def Obligations.OpcodeMapSelectsTheCommands : Prop :=
  ∀ b : Beat,
    (b.op &&& 0xFF = 0x00 → decode b = .command .nop) ∧
    (b.op &&& 0xFF = 0x10 → decode b = .command (.init32 (b.data.extractLsb' 0 32))) ∧
    (b.op &&& 0xFF = 0x20 → decode b = .command (.blk32 [b.data.extractLsb' 0 8, b.data.extractLsb' 8 8,
      b.data.extractLsb' 16 8, b.data.extractLsb' 24 8])) ∧
    (b.op &&& 0xFC = 0x30 → decode b = .command (.tail32
      ((List.range (b.op.extractLsb' 0 4).toNat).map fun i => b.data.extractLsb' (8 * i) 8))) ∧
    (b.op &&& 0xFF = 0x40 → decode b = .command .fin32) ∧
    (b.op &&& 0xFF = 0x90 → decode b = .command (.init128 (b.data.extractLsb' 0 32))) ∧
    (b.op &&& 0xFF = 0xA0 → decode b = .command (.blk128
      ((List.range 16).map fun i => b.data.extractLsb' (8 * i) 8))) ∧
    (b.op &&& 0xF0 = 0xB0 → decode b = .command (.tail128
      ((List.range (b.op.extractLsb' 0 4).toNat).map fun i => b.data.extractLsb' (8 * i) 8))) ∧
    (b.op &&& 0xFF = 0xC0 → decode b = .command .fin128) ∧
    (b.op &&& 0xFF ≠ 0x00 → b.op &&& 0xFF ≠ 0x10 → b.op &&& 0xFF ≠ 0x20 → b.op &&& 0xFC ≠ 0x30 → b.op &&& 0xFF ≠ 0x40 →
      b.op &&& 0xFF ≠ 0x90 → b.op &&& 0xFF ≠ 0xA0 → b.op &&& 0xF0 ≠ 0xB0 → b.op &&& 0xFF ≠ 0xC0 →
      ∃ why, decode b = .reserved why) ∧
    ((List.range 256).filter fun n => !isReserved (BitVec.ofNat 8 n)).length = 27

/-- R75: the reserved opcode bytes are exactly those of the table, 229 of them, whatever the payload; accepted with
`ERR = 0` each raises `IllegalOp`, and every other byte is a command. -/
def Obligations.ReservedBytesAreExactlyTheTable : Prop :=
  (∀ b : Beat, reservedRows b.op.toNat → ∃ why, decode b = .reserved why) ∧
  (∀ b : Beat, ¬ reservedRows b.op.toNat → ∃ i, decode b = .command i) ∧
  (∀ (b : Beat) (s : State), reservedRows b.op.toNat → s.err = false →
    acceptBeat b s = .next { s with err := true, ecode := .illegalOp, eop := b.op }) ∧
  ((List.range 256).filter fun n => decide (reservedRows n)).length = 229

/-- A sanity check of the decoder: the beats of program P1 and one beat of each remaining command, written out from R73
and R78. -/
def Obligations.SampleBeatsDecode : Prop :=
  decode { op := 0x10, data := 0 } = .command (.init32 0) ∧
  decode { op := 0x20, data := 0x6c6c6568 } = .command (.blk32 [0x68, 0x65, 0x6c, 0x6c]) ∧
  decode { op := 0x31, data := 0x6f } = .command (.tail32 [0x6f]) ∧
  decode { op := 0x40, data := 0 } = .command .fin32 ∧
  decode { op := 0x00, data := 0xdeadbeef } = .command .nop ∧
  decode { op := 0x90, data := 0x2a } = .command (.init128 42) ∧
  decode { op := 0xa0, data := 0x0f0e0d0c0b0a09080706050403020100 } =
    .command (.blk128 [0, 1, 2, 3, 4, 5, 6, 7, 8, 9, 10, 11, 12, 13, 14, 15]) ∧
  decode { op := 0xb9, data := 0x181716151413121110 } =
    .command (.tail128 [0x10, 0x11, 0x12, 0x13, 0x14, 0x15, 0x16, 0x17, 0x18]) ∧
  decode { op := 0xc0, data := 0 } = .command .fin128 ∧
  decode { op := 0x34, data := 0x6f } = .reserved .tail32Count

/-! ### The step -/

/-- R60, R244: where the block is out of reset and ready and the beat presented decodes to a command, the step is that
command, with the edge past; nothing else happens. -/
def Obligations.StepRunsTheDecodedCommand : Prop :=
  ∀ (s : State) (b : Beat) (rest : List Move) (i : Instr),
    s.port = .present b :: rest → nextRst s = false → s.held = false → decode b = .command i →
    step s = exec i { s with rst := s.rst.tail, port := rest }

/-- R212: a reserved byte presented to a ready block with `ERR = 0` raises `IllegalOp` and records the byte, whatever the
phases and the payload. -/
def Obligations.ReservedBeatRaisesIllegalOp : Prop :=
  ∀ (s : State) (b : Beat) (rest : List Move),
    s.port = .present b :: rest → nextRst s = false → s.held = false → reservedRows b.op.toNat → s.err = false →
    step s = .next { s with rst := s.rst.tail, port := rest, err := true, ecode := .illegalOp, eop := b.op }

/-- R214: `ERR` is looked at first, then the opcode byte, then the phase. So with `ERR = 1` nothing is raised, a reserved
byte reports `IllegalOp` in every phase, and only a command that is no reserved byte can report `Sequence`. -/
def Obligations.FaultChecksComeInOrder : Prop :=
  (∀ (b : Beat) (s : State), s.err = true → acceptBeat b s = .next s) ∧
  (∀ (b : Beat) (s t : State), s.err = false → acceptBeat b s = .next t → t.err = true →
    (t.ecode = .illegalOp ↔ reservedRows b.op.toNat) ∧ (t.ecode = .sequence ↔ ¬ reservedRows b.op.toNat)) ∧
  (∀ (d : U128) (s : State), s.err = false → s.ph32 = .idle →
    acceptBeat { op := 0x21, data := d } s = .next { s with err := true, ecode := .illegalOp, eop := 0x21 })

/-- R240. An edge with `rst = 1` gives every register its reset value and accepts nothing, a presented beat waiting; after
the first edge with `rst = 0` that follows, the block is in the reset state and accepts commands. On the clocked port the
edge abandons the command in progress with no effect, and `cmd_ready` is 0 while `rst = 1`. No step but an edge with
`rst = 1` clears a fault register or moves a phase to IDLE. The model starts from the reset state. Two parts of this are
the model's reading of "After the first rising edge with `rst = 0`" (log 4), not R240's own words: that an edge with
`rst = 1` leaves the block held (`held`), and that the first edge with `rst = 0` after it accepts nothing, a presented beat
waiting at both edges, on the step and on the clocked port. -/
def Obligations.ResetFromEveryState : Prop :=
  (∀ s : State, nextRst s = true →
    accepted s = none ∧
    step s = .next { State.reset with held := true, rst := s.rst.tail, port := afterWaiting s.port }) ∧
  (∀ s : State, nextRst s = true → s.rst.tail.headD false = false →
    Sys2Proof.core.run 2 s =
      .next { State.reset with rst := s.rst.tail.tail, port := afterWaiting (afterWaiting s.port) }) ∧
  (∀ (s : State) (b : Beat) (rest : List Move), s.held = false → nextRst s = false → s.port = .present b :: rest →
    accepted s = some b) ∧
  (∀ c : Clocked, nextRst c.regs = true →
    c.ready = false ∧
    clockEdge c =
      { regs := { State.reset with held := true, rst := c.regs.rst.tail, port := afterWaiting c.regs.port },
        busy := none, count := c.count } ∧
    (c.regs.rst.tail.headD false = false → clockEdges 2 c =
      { regs := { State.reset with rst := c.regs.rst.tail.tail, port := afterWaiting (afterWaiting c.regs.port) },
        busy := none, count := c.count })) ∧
  (∀ c : Clocked, c.regs.held = false → c.busy = none → nextRst c.regs = false → c.ready = true) ∧
  (∀ s t : State, step s = .next t →
    (s.err = true ∧ t.err = false) ∨ (s.ecode ≠ .noFault ∧ t.ecode = .noFault) ∨ (s.eop ≠ 0 ∧ t.eop = 0) ∨
      (s.ph32 ≠ .idle ∧ t.ph32 = .idle) ∨ (s.ph128 ≠ .idle ∧ t.ph128 = .idle) →
    nextRst s = true) ∧
  (Sys2Proof.core.reset : State) = State.reset

/-- R223, R245: an edge out of reset at which no beat is presented leaves every register, and the values on `cmd_op` and
`cmd_data` do not matter. That the host presents nothing once its moves are over is the model's choice (log 10), and that such
an edge ends the holding of the block is its reading of R240 (log 4). -/
def Obligations.NothingPresentedChangesNothing : Prop :=
  (∀ (s : State) (values : Beat) (rest : List Move), s.port = .quiet values :: rest → nextRst s = false →
    step s = .next { s with held := false, rst := s.rst.tail, port := rest }) ∧
  (∀ s : State, s.port = [] → nextRst s = false → step s = .next { s with held := false, rst := s.rst.tail })

/-- No command, no beat and no step ends the machine, which is how the model takes R210 and R249. Three parts of this are
the model's own choices, which those rules do not state: that the entry of both faults is a next state and that nothing is
ever refused (log 8); that `exec` answers also for ill-formed terms, of which the spec has none (log 7); and that the step
answers also where the host's lists are at their end (log 10). -/
def Obligations.NoStepStopsTheBlock : Prop :=
  (∀ (i : Instr) (s : State), ∃ t, exec i s = .next t) ∧ (∀ s : State, ∃ t, step s = .next t)

/-! ### Reset and the invariant -/

/-- R38: every register at its reset value, and what the ports then show. The zeros never reach a digest: from reset only
`NOP` and the two `INIT`, which read no accumulator, run without a fault. -/
def Obligations.ResetValues : Prop :=
  State.reset.h32 = 0 ∧ State.reset.len32 = 0 ∧ State.reset.ph32 = .idle ∧ State.reset.h1 = 0 ∧ State.reset.h2 = 0 ∧
  State.reset.len128 = 0 ∧ State.reset.ph128 = .idle ∧ State.reset.err = false ∧ State.reset.ecode = .noFault ∧
  State.reset.eop = 0 ∧ status State.reset = 0x0000 ∧ dig32 State.reset = 0 ∧ dig128 State.reset = 0 ∧
  dig32Valid State.reset = false ∧ dig128Valid State.reset = false ∧
  (∀ (i : Instr) (t : State), exec i State.reset = .next t → t.err = false →
    i = .nop ∨ (∃ seed, i = .init32 seed) ∨ ∃ seed, i = .init128 seed)

/-- The invariant holds after reset. -/
def Obligations.InvariantHoldsAtReset : Prop := Inv State.reset

/-- The invariant is kept by every step from every state that has it: the fault record is empty without a fault, and with
one names an opcode byte that raises the recorded cause in the phases the block is frozen in (R28 to R30, R211, R218); an
engine in IDLE holds its reset values (R23, R27, R38), and in ABSORB has absorbed whole blocks (R22, R26, R54); a block held
by reset, as the model reads R240 (log 4), has every register at its reset value. -/
def Obligations.InvariantIsKeptByEveryStep : Prop :=
  ∀ s t : State, Inv s → step s = .next t → Inv t

/-! ### Phases and faults -/

/-- R33: the phase table of both engines, its fault entries among them. A faulting command leaves both phases. -/
def Obligations.PhasesMoveByTheTable : Prop :=
  ∀ (i : Instr) (s t : State), s.err = false → exec i s = .next t →
    (t.err = true ↔
      ((∃ bytes, i = .blk32 bytes ∨ i = .tail32 bytes) ∧ s.ph32 ≠ .absorb) ∨
      (i = .fin32 ∧ (s.ph32 = .idle ∨ s.ph32 = .done)) ∨
      ((∃ bytes, i = .blk128 bytes ∨ i = .tail128 bytes) ∧ s.ph128 ≠ .absorb) ∨
      (i = .fin128 ∧ (s.ph128 = .idle ∨ s.ph128 = .done))) ∧
    (t.err = true → t.ph32 = s.ph32 ∧ t.ph128 = s.ph128) ∧
    (t.err = false →
      t.ph32 = (match i with
        | .init32 _ => .absorb
        | .tail32 _ => .tailed
        | .fin32 => .done
        | _ => s.ph32) ∧
      t.ph128 = (match i with
        | .init128 _ => .absorb
        | .tail128 _ => .tailed
        | .fin128 => .done
        | _ => s.ph128))

/-- R213: a command that its own engine's phase forbids raises `Sequence` and records its opcode byte; the other engine's
phase is not consulted, and `NOP` and the two `INIT` never raise it. -/
def Obligations.OutOfOrderCommandsRaiseSequence : Prop :=
  ∀ s : State, s.err = false →
    (s.ph32 ≠ .absorb → ∀ bytes : List Byte,
      exec (.blk32 bytes) s = .next { s with err := true, ecode := .sequence, eop := 0x20 } ∧
      (bytes.length ≤ 3 → exec (.tail32 bytes) s =
        .next { s with err := true, ecode := .sequence, eop := 0x30 + BitVec.ofNat 8 bytes.length })) ∧
    (s.ph32 = .idle ∨ s.ph32 = .done →
      exec .fin32 s = .next { s with err := true, ecode := .sequence, eop := 0x40 }) ∧
    (s.ph128 ≠ .absorb → ∀ bytes : List Byte,
      exec (.blk128 bytes) s = .next { s with err := true, ecode := .sequence, eop := 0xA0 } ∧
      (bytes.length ≤ 15 → exec (.tail128 bytes) s =
        .next { s with err := true, ecode := .sequence, eop := 0xB0 + BitVec.ofNat 8 bytes.length })) ∧
    (s.ph128 = .idle ∨ s.ph128 = .done →
      exec .fin128 s = .next { s with err := true, ecode := .sequence, eop := 0xC0 }) ∧
    (∀ (seed : U32) (t : State),
      exec .nop s = .next t ∨ exec (.init32 seed) s = .next t ∨ exec (.init128 seed) s = .next t → t.err = false) ∧
    (∀ (bytes : List Byte) (t : State), s.ph32 = .absorb →
      exec (.blk32 bytes) s = .next t ∨ exec (.tail32 bytes) s = .next t ∨ exec .fin32 s = .next t → t.err = false) ∧
    (∀ (bytes : List Byte) (t : State), s.ph128 = .absorb →
      exec (.blk128 bytes) s = .next t ∨ exec (.tail128 bytes) s = .next t ∨ exec .fin128 s = .next t → t.err = false) ∧
    (∀ t : State, s.ph32 = .tailed → exec .fin32 s = .next t → t.err = false) ∧
    (∀ t : State, s.ph128 = .tailed → exec .fin128 s = .next t → t.err = false)

/-- R215: a fault writes `ERR`, `ECODE` and `EOP` and nothing else, `EOP` being the byte presented; both valid flags are
then 0 and `status` shows the record. -/
def Obligations.FaultEntryWritesTheRecordOnly : Prop :=
  ∀ (b : Beat) (s t : State), s.err = false → acceptBeat b s = .next t → t.err = true →
    (t.ecode = .illegalOp ∨ t.ecode = .sequence) ∧
    t = { s with err := true, ecode := t.ecode, eop := b.op } ∧
    dig32Valid t = false ∧ dig128Valid t = false ∧
    (status t).getLsbD 4 = true ∧ (status t).extractLsb' 5 2 = causeCode t.ecode ∧ (status t).extractLsb' 8 8 = b.op

/-- R216, R218: with `ERR = 1` every command, and any number of steps without a reset edge whatever beats are presented,
leaves every register as it is, and no valid flag is set. A ready block goes on accepting: every step takes one move. -/
def Obligations.AfterAFaultNothingChanges : Prop :=
  (∀ (i : Instr) (s : State), s.err = true → exec i s = .next s ∧ dig32Valid s = false ∧ dig128Valid s = false) ∧
  (∀ (k : Nat) (s : State), s.err = true → noReset k s = true →
    ∃ t, Sys2Proof.core.run k s = .next t ∧ sameRegisters t s) ∧
  (∀ (k : Nat) (s : State), s.err = true → noReset k s = true → s.held = false →
    Sys2Proof.core.run k s = .next { s with rst := s.rst.drop k, port := s.port.drop k })

/-! ### The commands -/

/-- R200: `NOP` writes nothing in any state, with any payload. -/
def Obligations.NopWritesNothing : Prop :=
  ∀ s : State, exec .nop s = .next s ∧
    ∀ d : U128, step (presenting { op := 0x00, data := d } s) = .next { s with held := false }

/-- R141: `INIT32` in every phase, by command and by beat. -/
def Obligations.Init32StartsAMessage : Prop :=
  ∀ s : State, s.err = false →
    (∀ seed : U32, exec (.init32 seed) s = .next { s with h32 := seed, len32 := 0, ph32 := .absorb } ∧
      dig32Valid { s with h32 := seed, len32 := 0, ph32 := .absorb } = false) ∧
    (∀ d : U128, step (presenting { op := 0x10, data := d } s) =
      .next { s with h32 := d.extractLsb' 0 32, len32 := 0, ph32 := .absorb, held := false })

/-- R142: `BLK32` in ABSORB, by command and by beat; in every other phase it faults. -/
def Obligations.Blk32AbsorbsABlock : Prop :=
  ∀ s : State, s.err = false →
    (s.ph32 = .absorb →
      (∀ b0 b1 b2 b3 : Byte, exec (.blk32 [b0, b1, b2, b3]) s =
        .next { s with h32 := hround32 s.h32 (kmix32 (b3 ++ b2 ++ b1 ++ b0)), len32 := s.len32 + 4 }) ∧
      (∀ d : U128, step (presenting { op := 0x20, data := d } s) =
        .next { s with h32 := hround32 s.h32 (kmix32 (d.extractLsb' 0 32)), len32 := s.len32 + 4, held := false })) ∧
    (s.ph32 ≠ .absorb → ∀ d : U128,
      step (presenting { op := 0x20, data := d } s) =
        .next { s with err := true, ecode := .sequence, eop := 0x20, held := false })

/-- R143: `TAIL32` of 0 to 3 bytes in ABSORB, by command and by beat: no rotation, no multiply by 5; lanes at or above the
count do not matter. In every other phase it faults. -/
def Obligations.Tail32AbsorbsTheTail : Prop :=
  ∀ s : State, s.err = false →
    (s.ph32 = .absorb →
      (exec (.tail32 []) s = .next { s with ph32 := .tailed }) ∧
      (∀ b0 : Byte, exec (.tail32 [b0]) s =
        .next { s with h32 := s.h32 ^^^ kmix32 (0#24 ++ b0), len32 := s.len32 + 1, ph32 := .tailed }) ∧
      (∀ b0 b1 : Byte, exec (.tail32 [b0, b1]) s =
        .next { s with h32 := s.h32 ^^^ kmix32 (0#16 ++ b1 ++ b0), len32 := s.len32 + 2, ph32 := .tailed }) ∧
      (∀ b0 b1 b2 : Byte, exec (.tail32 [b0, b1, b2]) s =
        .next { s with h32 := s.h32 ^^^ kmix32 (0#8 ++ b2 ++ b1 ++ b0), len32 := s.len32 + 3, ph32 := .tailed }) ∧
      (∀ (n : Nat) (d : U128), n ≤ 3 →
        step (presenting { op := BitVec.ofNat 8 (0x30 + n), data := d } s) =
          .next { s with
            h32 := s.h32 ^^^ kmix32 (BitVec.ofNat 32 (d.toNat % 2 ^ (8 * n)))
            len32 := s.len32 + BitVec.ofNat 32 n
            ph32 := .tailed
            held := false })) ∧
    (s.ph32 ≠ .absorb → ∀ (n : Nat) (d : U128), n ≤ 3 →
      step (presenting { op := BitVec.ofNat 8 (0x30 + n), data := d } s) =
        .next { s with err := true, ecode := .sequence, eop := BitVec.ofNat 8 (0x30 + n), held := false })

/-- R144: `FIN32` in ABSORB and in TAILED, by command and by beat: the length XORed in, then the finalizer; `LEN32` kept,
`dig32_valid` set. In IDLE and DONE it faults. -/
def Obligations.Fin32Finalizes : Prop :=
  ∀ s : State, s.err = false →
    (s.ph32 = .absorb ∨ s.ph32 = .tailed →
      (exec .fin32 s = .next { s with h32 := fmix32 (s.h32 ^^^ s.len32), ph32 := .done }) ∧
      dig32Valid { s with h32 := fmix32 (s.h32 ^^^ s.len32), ph32 := .done } = true ∧
      (∀ d : U128, step (presenting { op := 0x40, data := d } s) =
        .next { s with h32 := fmix32 (s.h32 ^^^ s.len32), ph32 := .done, held := false })) ∧
    (s.ph32 = .idle ∨ s.ph32 = .done → ∀ d : U128,
      step (presenting { op := 0x40, data := d } s) =
        .next { s with err := true, ecode := .sequence, eop := 0x40, held := false })

/-- R171: `INIT128` in every phase, by command and by beat; the seed is zero-extended. -/
def Obligations.Init128StartsAMessage : Prop :=
  ∀ s : State, s.err = false →
    (∀ seed : U32, exec (.init128 seed) s =
      .next { s with h1 := 0#32 ++ seed, h2 := 0#32 ++ seed, len128 := 0, ph128 := .absorb } ∧
      dig128Valid { s with h1 := 0#32 ++ seed, h2 := 0#32 ++ seed, len128 := 0, ph128 := .absorb } = false) ∧
    (∀ d : U128, step (presenting { op := 0x90, data := d } s) =
      .next { s with
        h1 := 0#32 ++ d.extractLsb' 0 32
        h2 := 0#32 ++ d.extractLsb' 0 32
        len128 := 0
        ph128 := .absorb
        held := false })

/-- R172: `BLK128` in ABSORB, by command and by beat: `k1` the first eight bytes, `k2` the last eight. In every other phase
it faults. -/
def Obligations.Blk128AbsorbsABlock : Prop :=
  ∀ s : State, s.err = false →
    (s.ph128 = .absorb →
      (∀ bytes : List Byte, bytes.length = 16 → exec (.blk128 bytes) s =
        .next { s with
          h1 := (blkround128 s.h1 s.h2 (le64 (bytes.take 8)) (le64 (bytes.drop 8))).1
          h2 := (blkround128 s.h1 s.h2 (le64 (bytes.take 8)) (le64 (bytes.drop 8))).2
          len128 := s.len128 + 16 }) ∧
      (∀ d : U128, step (presenting { op := 0xA0, data := d } s) =
        .next { s with
          h1 := (blkround128 s.h1 s.h2 (d.extractLsb' 0 64) (d.extractLsb' 64 64)).1
          h2 := (blkround128 s.h1 s.h2 (d.extractLsb' 0 64) (d.extractLsb' 64 64)).2
          len128 := s.len128 + 16
          held := false })) ∧
    (s.ph128 ≠ .absorb → ∀ d : U128,
      step (presenting { op := 0xA0, data := d } s) =
        .next { s with err := true, ecode := .sequence, eop := 0xA0, held := false })

/-- R173: `TAIL128` of 0 to 15 bytes in ABSORB, by command and by beat: each lane takes its own word, and lanes at or above
the count do not matter. An empty tail changes the phase only, and a tail of at most 8 bytes leaves `H2`. In every other
phase it faults. -/
def Obligations.Tail128AbsorbsTheTail : Prop :=
  ∀ s : State, s.err = false →
    (s.ph128 = .absorb →
      (∀ bytes : List Byte, bytes.length ≤ 15 → exec (.tail128 bytes) s =
        .next { s with
          h1 := s.h1 ^^^ kmix1w64 (le64 (bytes.take 8 ++ List.replicate (8 - bytes.length) 0))
          h2 := s.h2 ^^^ kmix2w64 (le64 (bytes.drop 8 ++ List.replicate (16 - max 8 bytes.length) 0))
          len128 := s.len128 + BitVec.ofNat 64 bytes.length
          ph128 := .tailed }) ∧
      (exec (.tail128 []) s = .next { s with ph128 := .tailed }) ∧
      (∀ (bytes : List Byte) (t : State), bytes.length ≤ 8 → exec (.tail128 bytes) s = .next t → t.h2 = s.h2) ∧
      (∀ (n : Nat) (d : U128), n ≤ 15 →
        step (presenting { op := BitVec.ofNat 8 (0xB0 + n), data := d } s) =
          .next { s with
            h1 := s.h1 ^^^ kmix1w64 (BitVec.ofNat 64 (d.toNat % 2 ^ (8 * n)))
            h2 := s.h2 ^^^ kmix2w64 (BitVec.ofNat 64 (d.toNat % 2 ^ (8 * n) / 2 ^ 64))
            len128 := s.len128 + BitVec.ofNat 64 n
            ph128 := .tailed
            held := false })) ∧
    (s.ph128 ≠ .absorb → ∀ (n : Nat) (d : U128), n ≤ 15 →
      step (presenting { op := BitVec.ofNat 8 (0xB0 + n), data := d } s) =
        .next { s with err := true, ecode := .sequence, eop := BitVec.ofNat 8 (0xB0 + n), held := false })

/-- R174: `FIN128` in ABSORB and in TAILED, by command and by beat; `LEN128` kept, `dig128_valid` set. In IDLE and DONE it
faults. -/
def Obligations.Fin128Finalizes : Prop :=
  ∀ s : State, s.err = false →
    (s.ph128 = .absorb ∨ s.ph128 = .tailed →
      (exec .fin128 s = .next { s with
        h1 := (final128 s.h1 s.h2 s.len128).1, h2 := (final128 s.h1 s.h2 s.len128).2, ph128 := .done }) ∧
      dig128Valid { s with
        h1 := (final128 s.h1 s.h2 s.len128).1, h2 := (final128 s.h1 s.h2 s.len128).2, ph128 := .done } = true ∧
      (∀ d : U128, step (presenting { op := 0xC0, data := d } s) =
        .next { s with
          h1 := (final128 s.h1 s.h2 s.len128).1
          h2 := (final128 s.h1 s.h2 s.len128).2
          ph128 := .done
          held := false })) ∧
    (s.ph128 = .idle ∨ s.ph128 = .done → ∀ d : U128,
      step (presenting { op := 0xC0, data := d } s) =
        .next { s with err := true, ecode := .sequence, eop := 0xC0, held := false })

/-! ### Frames and independence -/

/-- R40, the write sets: what each command leaves unchanged, register by register. With `ERR = 1` that is everything; a
faulting command leaves every register but the fault registers, and every other command leaves those; a command of one
engine, or `NOP`, leaves the other engine's registers; a block leaves its phase and a finish its length. No command
changes what the host does or whether the block is held by reset. -/
def Obligations.CommandsLeaveTheRestUnchanged : Prop :=
  ∀ (i : Instr) (s t : State), exec i s = .next t →
    t.held = s.held ∧ t.rst = s.rst ∧ t.port = s.port ∧
    (s.err = true → t = s) ∧
    (s.err = false → t.err = true → t.h32 = s.h32 ∧ t.len32 = s.len32 ∧ t.ph32 = s.ph32 ∧ t.h1 = s.h1 ∧ t.h2 = s.h2 ∧
      t.len128 = s.len128 ∧ t.ph128 = s.ph128) ∧
    (t.err = false → s.err = false ∧ t.ecode = s.ecode ∧ t.eop = s.eop) ∧
    (isE32 i = false → t.h32 = s.h32 ∧ t.len32 = s.len32 ∧ t.ph32 = s.ph32) ∧
    (isE128 i = false → t.h1 = s.h1 ∧ t.h2 = s.h2 ∧ t.len128 = s.len128 ∧ t.ph128 = s.ph128) ∧
    (∀ bytes, i = .blk32 bytes → t.ph32 = s.ph32) ∧
    (i = .fin32 → t.len32 = s.len32) ∧
    (∀ bytes, i = .blk128 bytes → t.ph128 = s.ph128) ∧
    (i = .fin128 → t.len128 = s.len128)

/-- R37, first part: a command of one engine reads no register of the other. Two states that agree on an engine's registers
and on the fault registers still do after a command of that engine. -/
def Obligations.EnginesReadOnlyTheirOwnRegisters : Prop :=
  ∀ (i : Instr) (s s' t t' : State), exec i s = .next t → exec i s' = .next t' →
    s.err = s'.err → s.ecode = s'.ecode → s.eop = s'.eop →
    (isE128 i = false → s.h32 = s'.h32 → s.len32 = s'.len32 → s.ph32 = s'.ph32 →
      t.h32 = t'.h32 ∧ t.len32 = t'.len32 ∧ t.ph32 = t'.ph32 ∧ t.err = t'.err ∧ t.ecode = t'.ecode ∧ t.eop = t'.eop) ∧
    (isE32 i = false → s.h1 = s'.h1 → s.h2 = s'.h2 → s.len128 = s'.len128 → s.ph128 = s'.ph128 →
      t.h1 = t'.h1 ∧ t.h2 = t'.h2 ∧ t.len128 = t'.len128 ∧ t.ph128 = t'.ph128 ∧ t.err = t'.err ∧ t.ecode = t'.ecode ∧
        t.eop = t'.eop)

/-- R37, its consequence: while `ERR = 0`, the registers an engine ends with are those its own commands alone would leave,
however the two engines' commands are interleaved. -/
def Obligations.InterleavingDoesNotMatter : Prop :=
  ∀ (cs : List Instr) (s t : State), execAll cs s = .next t → t.err = false →
    (∃ u, execAll (cs.filter isE32) s = .next u ∧
      u.err = false ∧ u.h32 = t.h32 ∧ u.len32 = t.len32 ∧ u.ph32 = t.ph32) ∧
    (∃ u, execAll (cs.filter isE128) s = .next u ∧
      u.err = false ∧ u.h1 = t.h1 ∧ u.h2 = t.h2 ∧ u.len128 = t.len128 ∧ u.ph128 = t.ph128)

/-! ### Bytes and words -/

/-- R52: little-endian assembly as sums, and as slices of the payload. -/
def Obligations.LittleEndianAssembly : Prop :=
  (∀ b0 b1 b2 b3 : Byte, (le32 [b0, b1, b2, b3]).toNat =
    b0.toNat + b1.toNat * 2 ^ 8 + b2.toNat * 2 ^ 16 + b3.toNat * 2 ^ 24) ∧
  (∀ b0 b1 b2 b3 b4 b5 b6 b7 : Byte, (le64 [b0, b1, b2, b3, b4, b5, b6, b7]).toNat =
    b0.toNat + b1.toNat * 2 ^ 8 + b2.toNat * 2 ^ 16 + b3.toNat * 2 ^ 24 + b4.toNat * 2 ^ 32 + b5.toNat * 2 ^ 40 +
      b6.toNat * 2 ^ 48 + b7.toNat * 2 ^ 56) ∧
  (∀ d : U128, le32 (lanes 4 d) = d.extractLsb' 0 32 ∧
    blk128Words (lanes 16 d) = (d.extractLsb' 0 64, d.extractLsb' 64 64))

/-- R57: a tail's words have the payload's bits below `8n` and zeros from there up. -/
def Obligations.TailLanesAreZeroPadded : Prop :=
  (∀ (n j : Nat) (d : U128), n ≤ 3 → j < 32 →
    (tail32Word (lanes n d)).getLsbD j = (decide (j < 8 * n) && d.getLsbD j)) ∧
  (∀ (n j : Nat) (d : U128), n ≤ 15 → j < 64 →
    (tail128Words (lanes n d)).1.getLsbD j = (decide (j < 8 * n) && d.getLsbD j) ∧
    (tail128Words (lanes n d)).2.getLsbD j = (decide (64 + j < 8 * n) && d.getLsbD (64 + j))) ∧
  (∀ (n : Nat) (d : U128), n ≤ 3 → (tail32Word (lanes n d)).toNat < 2 ^ 24) ∧
  (∀ (n : Nat) (d : U128), n ≤ 15 → (tail128Words (lanes n d)).2.toNat < 2 ^ 56)

/-- R178: the tail byte at position `p` lands at bit `8 * (p mod 8)` of `k1` for `p` below 8 and of `k2` from 8 on; a
position that carries no byte is zero. -/
def Obligations.TailBytesLandAtTheirShifts : Prop :=
  ∀ (bytes : List Byte) (p q : Nat), bytes.length ≤ 15 → p < 16 → q < 8 →
    (if p < 8 then (tail128Words bytes).1 else (tail128Words bytes).2).getLsbD (8 * (p % 8) + q) =
      (bytes.getD p 0).getLsbD q

/-- R54: the host's split of a message into full blocks and a tail loses no byte and changes no order. -/
def Obligations.SplitLosesNoByte : Prop :=
  ∀ M : List Byte,
    ((fullBlocks 4 M).flatten ++ tailBytes 4 M = M ∧ (fullBlocks 4 M).length = M.length / 4 ∧
      (∀ b ∈ fullBlocks 4 M, b.length = 4) ∧ (tailBytes 4 M).length = M.length % 4) ∧
    ((fullBlocks 16 M).flatten ++ tailBytes 16 M = M ∧ (fullBlocks 16 M).length = M.length / 16 ∧
      (∀ b ∈ fullBlocks 16 M, b.length = 16) ∧ (tailBytes 16 M).length = M.length % 16)

/-! ### The datapath -/

/-- R105, R106: a rotation moves bit `i` to bit `(i + r) mod w`, and is the sum the rules write. -/
def Obligations.RotationsMoveEveryBit : Prop :=
  (∀ (x : U32) (r i : Nat), 0 < r → r < 32 → i < 32 →
    (rotl32 x r).getLsbD ((i + r) % 32) = x.getLsbD i ∧
    (rotl32 x r).toNat = x.toNat * 2 ^ r % 2 ^ 32 + x.toNat / 2 ^ (32 - r)) ∧
  (∀ (x : U64) (r i : Nat), 0 < r → r < 64 → i < 64 →
    (rotl64 x r).getLsbD ((i + r) % 64) = x.getLsbD i ∧
    (rotl64 x r).toNat = x.toNat * 2 ^ r % 2 ^ 64 + x.toNat / 2 ^ (64 - r))

/-- R112, R113, R114: the chains of E32 in arithmetic on numbers. -/
def Obligations.E32ChainsInArithmetic : Prop :=
  (∀ k : U32, (kmix32 k).toNat =
    (let a := k.toNat * 0xcc9e2d51 % 2 ^ 32
     let b := a * 2 ^ 15 % 2 ^ 32 + a / 2 ^ 17
     b * 0x1b873593 % 2 ^ 32)) ∧
  (∀ h m : U32, (hround32 h m).toNat =
    (let a := h.toNat ^^^ m.toNat
     let b := a * 2 ^ 13 % 2 ^ 32 + a / 2 ^ 19
     (b * 5 % 2 ^ 32 + 0xe6546b64) % 2 ^ 32)) ∧
  (∀ h : U32, (fmix32 h).toNat =
    (let s1 := h.toNat ^^^ (h.toNat / 2 ^ 16)
     let s2 := s1 * 0x85ebca6b % 2 ^ 32
     let s3 := s2 ^^^ (s2 / 2 ^ 13)
     let s4 := s3 * 0xc2b2ae35 % 2 ^ 32
     s4 ^^^ (s4 / 2 ^ 16)))

/-- R115 to R119: the chains of E128 in arithmetic on numbers, and the order in which the lanes are added. -/
def Obligations.E128ChainsInArithmetic : Prop :=
  (∀ k : U64, (kmix1w64 k).toNat =
    (let a := k.toNat * 0x87c37b91114253d5 % 2 ^ 64
     let b := a * 2 ^ 31 % 2 ^ 64 + a / 2 ^ 33
     b * 0x4cf5ad432745937f % 2 ^ 64)) ∧
  (∀ k : U64, (kmix2w64 k).toNat =
    (let a := k.toNat * 0x4cf5ad432745937f % 2 ^ 64
     let b := a * 2 ^ 33 % 2 ^ 64 + a / 2 ^ 31
     b * 0x87c37b91114253d5 % 2 ^ 64)) ∧
  (∀ h1 h2 k1 k2 : U64,
    let r := blkround128 h1 h2 k1 k2
    let a := h1.toNat ^^^ (kmix1w64 k1).toNat
    let b := a * 2 ^ 27 % 2 ^ 64 + a / 2 ^ 37
    let c := (b + h2.toNat) % 2 ^ 64
    let e := h2.toNat ^^^ (kmix2w64 k2).toNat
    let f := e * 2 ^ 31 % 2 ^ 64 + e / 2 ^ 33
    let g := (f + r.1.toNat) % 2 ^ 64
    r.1.toNat = (c * 5 % 2 ^ 64 + 0x52dce729) % 2 ^ 64 ∧ r.2.toNat = (g * 5 % 2 ^ 64 + 0x38495ab5) % 2 ^ 64) ∧
  (∀ x : U64, (fmix64 x).toNat =
    (let s1 := x.toNat ^^^ (x.toNat / 2 ^ 33)
     let s2 := s1 * 0xff51afd7ed558ccd % 2 ^ 64
     let s3 := s2 ^^^ (s2 / 2 ^ 33)
     let s4 := s3 * 0xc4ceb9fe1a85ec53 % 2 ^ 64
     s4 ^^^ (s4 / 2 ^ 33))) ∧
  (∀ h1 h2 len : U64,
    let a1 := h1 ^^^ len
    let a2 := h2 ^^^ len
    let b1 := (a1.toNat + a2.toNat) % 2 ^ 64
    let b2 := (a2.toNat + b1) % 2 ^ 64
    let c1 := (fmix64 (BitVec.ofNat 64 b1)).toNat
    let c2 := (fmix64 (BitVec.ofNat 64 b2)).toNat
    let d1 := (c1 + c2) % 2 ^ 64
    (final128 h1 h2 len).1.toNat = d1 ∧ (final128 h1 h2 len).2.toNat = (c2 + d1) % 2 ^ 64)

/-- R120 (a) and the chains of (b): the mixes of zero are zero, and the k-mixes, the avalanche mixes and, for a fixed mixed
word, the block round of E32 are bijections. -/
def Obligations.MixesAreBijections : Prop :=
  kmix32 0 = 0 ∧ kmix1w64 0 = 0 ∧ kmix2w64 0 = 0 ∧ fmix32 0 = 0 ∧ fmix64 0 = 0 ∧
  Function.Bijective kmix32 ∧ Function.Bijective kmix1w64 ∧ Function.Bijective kmix2w64 ∧
  Function.Bijective fmix32 ∧ Function.Bijective fmix64 ∧ ∀ m : U32, Function.Bijective fun h => hround32 h m

/-! ### Output ports -/

/-- R31, with the codes of R23, R27 and R29: the fields of `status`, bit by bit, and its reset value. -/
def Obligations.StatusShowsTheRegisters : Prop :=
  (∀ s : State, (status s).extractLsb' 0 2 = phaseCode s.ph32 ∧ (status s).extractLsb' 2 2 = phaseCode s.ph128 ∧
    (status s).getLsbD 4 = s.err ∧ (status s).extractLsb' 5 2 = causeCode s.ecode ∧ (status s).getLsbD 7 = false ∧
    (status s).extractLsb' 8 8 = s.eop) ∧
  phaseCode .idle = 0 ∧ phaseCode .absorb = 1 ∧ phaseCode .tailed = 2 ∧ phaseCode .done = 3 ∧
  causeCode .noFault = 0 ∧ causeCode .illegalOp = 1 ∧ causeCode .sequence = 2 ∧ status State.reset = 0x0000

/-- R32, R34: the digest ports show the accumulators whatever the phase, `H1` high; a valid flag is phase DONE with
`ERR = 0`. -/
def Obligations.PortsShowTheDigests : Prop :=
  ∀ s : State, dig32 s = s.h32 ∧ dig128H1 s = s.h1 ∧ dig128H2 s = s.h2 ∧
    (dig128 s).toNat = s.h1.toNat * 2 ^ 64 + s.h2.toNat ∧
    (dig128 s).extractLsb' 64 64 = s.h1 ∧ (dig128 s).extractLsb' 0 64 = s.h2 ∧
    (dig32Valid s = true ↔ finished32 s) ∧ (dig128Valid s = true ↔ finished128 s)

/-- R246: a valid flag stays 1 and its digest unchanged until the next accepted `INIT` of that engine, a fault, or
reset. -/
def Obligations.ValidDigestsStay : Prop :=
  ∀ s t : State, step s = .next t → nextRst s = false → t.err = false →
    (dig32Valid s = true → (∀ d, accepted s ≠ some { op := 0x10, data := d }) →
      dig32Valid t = true ∧ dig32 t = dig32 s) ∧
    (dig128Valid s = true → (∀ d, accepted s ≠ some { op := 0x90, data := d }) →
      dig128Valid t = true ∧ dig128 t = dig128 s ∧ dig128H1 t = dig128H1 s ∧ dig128H2 t = dig128H2 s)

/-! ### What the commands add up to -/

/-- R145: from any state with `ERR = 0`, the expansion of `HASH32 s, M`, with any `NOP` and E128 commands interleaved that
do not fault of themselves, faults nowhere and leaves the digest `hash32(M, s)`; and in general the digest is that of the
blocks and the tail it was sent. -/
def Obligations.Hash32IsComputed : Prop :=
  (∀ (seed : U32) (M : List Byte) (cs : List Instr) (s : State),
    s.err = false → cs.filter isE32 = expandHash32 seed M →
    (∃ u, execAll (cs.filter fun i => !isE32 i) s = .next u ∧ u.err = false) →
    ∃ t, execAll cs s = .next t ∧ t.err = false ∧ t.ph32 = .done ∧ t.len32 = BitVec.ofNat 32 M.length ∧
      dig32Valid t = true ∧ dig32 t = t.h32 ∧ t.h32 = hash32 M seed) ∧
  (∀ (seed : U32) (blocks : List (List Byte)) (tail : List Byte) (s : State),
    s.err = false → (∀ b ∈ blocks, b.length = 4) → tail.length ≤ 3 →
    ∃ t, execAll (.init32 seed :: (blocks.map .blk32 ++ [.tail32 tail, .fin32])) s = .next t ∧
      t.h32 = fmix32 (blocks.foldl (fun h b => hround32 h (kmix32 (le32 b))) seed ^^^ kmix32 (le32 (padLanes 4 tail)) ^^^
        BitVec.ofNat 32 (4 * blocks.length + tail.length)))

/-- R176: from any state with `ERR = 0`, the expansion of `HASH128 s, M`, with any `NOP` and E32 commands interleaved that
do not fault of themselves, faults nowhere and leaves the lanes of `hash128(M, s)`. -/
def Obligations.Hash128IsComputed : Prop :=
  ∀ (seed : U32) (M : List Byte) (cs : List Instr) (s : State),
    s.err = false → cs.filter isE128 = expandHash128 seed M →
    (∃ u, execAll (cs.filter fun i => !isE128 i) s = .next u ∧ u.err = false) →
    ∃ t, execAll cs s = .next t ∧ t.err = false ∧ t.ph128 = .done ∧ t.len128 = BitVec.ofNat 64 M.length ∧
      dig128Valid t = true ∧ (t.h1, t.h2) = hash128 M seed

/-- R147, R179: an empty tail may be left out. -/
def Obligations.EmptyTailMayBeLeftOut : Prop :=
  (∀ (seed : U32) (blocks : List (List Byte)) (s : State),
    ∃ t, execAll (.init32 seed :: (blocks.map .blk32 ++ [.tail32 [], .fin32])) s = .next t ∧
      execAll (.init32 seed :: (blocks.map .blk32 ++ [.fin32])) s = .next t) ∧
  (∀ (seed : U32) (blocks : List (List Byte)) (s : State),
    ∃ t, execAll (.init128 seed :: (blocks.map .blk128 ++ [.tail128 [], .fin128])) s = .next t ∧
      execAll (.init128 seed :: (blocks.map .blk128 ++ [.fin128])) s = .next t)

/-- R146: a tail of 1 to 3 bytes is not the block of the same bytes padded with zeros: the block's accumulator is the
tail's rotated, multiplied and added to, and the lengths differ. Four bytes are no tail. -/
def Obligations.TailIsNotAPaddedBlock : Prop :=
  (∀ bytes : List Byte, Instr.wf (.tail32 bytes) = true ↔ bytes.length ≤ 3) ∧
  (∀ (bytes : List Byte) (s : State), s.err = false → s.ph32 = .absorb → 1 ≤ bytes.length → bytes.length ≤ 3 →
    ∃ t u, exec (.tail32 bytes) s = .next t ∧ exec (.blk32 (padLanes 4 bytes)) s = .next u ∧
      u.h32 = rotl32 t.h32 13 * 5 + 0xe6546b64 ∧ t.len32 = s.len32 + BitVec.ofNat 32 bytes.length ∧
      u.len32 = s.len32 + 4 ∧ t.len32 ≠ u.len32) ∧
  (∀ s t u : State, s.err = false → s.ph32 = .absorb → s.h32 = 0 → s.len32 = 0 →
    exec (.tail32 [0x6f]) s = .next t → exec (.blk32 [0x6f, 0x00, 0x00, 0x00]) s = .next u →
    t.h32 = 0x73bcd07e ∧ t.len32 = 1 ∧ u.h32 = hround32 0 0x73bcd07e ∧ u.len32 = 4)

/-- R249: how many commands a message of `L` bytes takes on each engine, the tail sent. -/
def Obligations.CommandsPerMessage : Prop :=
  ∀ (seed : U32) (M : List Byte), (expandHash32 seed M).length = M.length / 4 + 3 ∧
    (expandHash128 seed M).length = M.length / 16 + 3

/-! ### The clocked port and the assembler -/

/-- R244, R248, R60: the clocked port runs the step, its registers taken once the command in progress has completed. An edge
out of reset that finds a command in progress is no step; every other edge is one. So `n` edges are as many steps as there
were other edges, over what the host did at those (`seen`), whatever the latencies. -/
def Obligations.ClockedPortRunsTheStep : Prop :=
  (∀ c : Clocked, c.busy ≠ none → nextRst c.regs = false → (clockEdge c).settled = pastEdge c.settled) ∧
  (∀ c : Clocked, c.busy = none ∨ nextRst c.regs = true → step c.settled = .next (clockEdge c).settled) ∧
  (∀ (n : Nat) (c : Clocked),
    Sys2Proof.core.run (seen n c).steps (withInput (seen n c).rst (seen n c).port c.settled) =
      .next (clockEdges n c).settled)

/-- R244: an accepted beat holds the port for its latency. Until then `cmd_ready` is 0 and no register changes, whatever
else is presented; at the edge it completes `cmd_ready` is 1 again (unless reset comes) together with the command's writes.
The latency that an accepted beat gets is `Config.lat`, a free value; what is said of the port holds for every latency
`k`. -/
def Obligations.CommandHoldsThePortForItsLatency : Prop :=
  ∀ (c : Clocked) (b : Beat), c.busy = none → accepted c.regs = some b →
    clockEdge c = startFor (Config.lat c.count b.op) b { c with regs := pastBeat c.regs } ∧
    ∀ k n : Nat, noReset n (pastBeat c.regs) = true →
      (n < k → (clockEdges n (startFor k b { c with regs := pastBeat c.regs })).ready = false ∧
        sameRegisters (clockEdges n (startFor k b { c with regs := pastBeat c.regs })).regs c.regs) ∧
      (n = k → (clockEdges n (startFor k b { c with regs := pastBeat c.regs })).busy = none ∧
        (nextRst (clockEdges n (startFor k b { c with regs := pastBeat c.regs })).regs = false →
          (clockEdges n (startFor k b { c with regs := pastBeat c.regs })).ready = true) ∧
        ∃ t, acceptBeat b c.regs = .next t ∧
          sameRegisters (clockEdges n (startFor k b { c with regs := pastBeat c.regs })).regs t)

/-- R78: the assembler makes only commands that can be encoded: no block or tail of a wrong length gets through. -/
def Obligations.AssembledCommandsAreWellFormed : Prop :=
  ∀ (script : List Char) (is : List Instr), assemble script = .ok is → ∀ i ∈ is, i.wf = true

/-- R245, R251: a beat that waits is still the beat presented at every later edge until one accepts it: in reset, while the
block is held by it, and while a command is in progress. It is then accepted as it was first presented, and `cmd_ready`
never looks at what is presented. -/
def Obligations.AWaitingBeatIsHeld : Prop :=
  (∀ (s t : State) (b : Beat) (rest : List Move), s.port = .present b :: rest → step s = .next t →
    (accepted s = none → t.port = s.port) ∧ (accepted s ≠ none → accepted s = some b ∧ t.port = rest)) ∧
  (∀ (n : Nat) (c : Clocked) (b : Beat) (rest : List Move), c.regs.port = .present b :: rest →
    (∀ j, j < n → (clockEdges j c).ready = false) → (clockEdges n c).regs.port = .present b :: rest) ∧
  (∀ (c : Clocked) (b : Beat) (rest : List Move), c.regs.port = .present b :: rest → c.ready = true →
    accepted c.regs = some b ∧ (clockEdge c).regs.port = rest) ∧
  (∀ (c : Clocked) (p : List Move), Clocked.ready { c with regs := withInput c.regs.rst p c.regs } = c.ready)

/-- How the model reads "After the first rising edge with `rst = 0`" of R240 (log 4): between a reset edge and that edge the
block is held. `cmd_ready` is then 0, and that edge accepts nothing, leaves every register and ends the holding. A block
that is held has no command in progress, at reset and after every edge. -/
def Obligations.HeldUntilTheFirstEdgeOutOfReset : Prop :=
  (∀ s : State, s.held = true → nextRst s = false →
    accepted s = none ∧ step s = .next { s with held := false, rst := s.rst.tail, port := afterWaiting s.port }) ∧
  (∀ s t : State, step s = .next t → (t.held = true ↔ nextRst s = true)) ∧
  (∀ c : Clocked, c.regs.held = true → c.ready = false) ∧
  (∀ c : Clocked, c.regs.held = true → c.busy = none → nextRst c.regs = false → clockEdge c =
    { c with regs := { c.regs with held := false, rst := c.regs.rst.tail, port := afterWaiting c.regs.port } }) ∧
  Clocked.reset.regs.held = false ∧
  (∀ c : Clocked, (c.regs.held = true → c.busy = none) → (clockEdge c).regs.held = true → (clockEdge c).busy = none)
end

