-- ==== Sys2Proof/Laws/Bytes.lean ====
section
/-! SUPPORT. Little-endian numbers and byte lanes: a number's lanes are its bytes, and lanes packed and read back are the
same bytes (20_memory.md R51, R52, R57). -/

namespace Sys2Proof.Laws

open Sys2Proof Sys2Proof.Machine

/-! ### Little-endian numbers -/

@[simp] theorem leNat_nil : leNat [] = 0 := rfl

@[simp] theorem leNat_cons (b : Byte) (bs : List Byte) : leNat (b :: bs) = b.toNat + 256 * leNat bs := rfl

/-- A number of `n` bytes is below `2^(8n)`. -/
theorem leNat_lt (bs : List Byte) : leNat bs < 2 ^ (8 * bs.length) := by
  induction bs with
  | nil => simp
  | cons b bs ih =>
    have hb := b.isLt
    have hp : 2 ^ (8 * (b :: bs).length) = 256 * 2 ^ (8 * bs.length) := by
      rw [List.length_cons, Nat.mul_succ, Nat.pow_add, Nat.mul_comm]
    rw [hp, leNat_cons]
    omega

/-- Bytes written after others count `256` to the power of how many stand before them. -/
theorem leNat_append (bs cs : List Byte) : leNat (bs ++ cs) = leNat bs + 2 ^ (8 * bs.length) * leNat cs := by
  induction bs with
  | nil => simp
  | cons b bs ih =>
    have hp : 2 ^ (8 * (b :: bs).length) = 256 * 2 ^ (8 * bs.length) := by
      rw [List.length_cons, Nat.mul_succ, Nat.pow_add, Nat.mul_comm]
    rw [List.cons_append, leNat_cons, ih, leNat_cons, hp]
    ring

/-- Zero bytes count nothing. -/
@[simp] theorem leNat_zeros (n : Nat) : leNat (List.replicate n 0#8) = 0 := by
  induction n with
  | zero => rfl
  | succ n ih => rw [List.replicate_succ, leNat_cons, ih]; rfl

/-- Padding with zero bytes does not change the number (20_memory.md R57). -/
@[simp] theorem leNat_padLanes (w : Nat) (bs : List Byte) : leNat (padLanes w bs) = leNat bs := by
  simp [padLanes, leNat_append]

/-- Byte `i` of a number is the `i`-th byte listed. -/
theorem leNat_byte (bs : List Byte) (i : Nat) : leNat bs / 2 ^ (8 * i) % 256 = (bs.getD i 0).toNat := by
  induction bs generalizing i with
  | nil => simp
  | cons b bs ih =>
    have hb := b.isLt
    cases i with
    | zero => rw [leNat_cons, List.getD_cons_zero]; omega
    | succ i =>
      have hp : 2 ^ (8 * (i + 1)) = 256 * 2 ^ (8 * i) := by rw [Nat.mul_succ, Nat.pow_add, Nat.mul_comm]
      rw [leNat_cons, List.getD_cons_succ, hp, ← Nat.div_div_eq_div_mul, ← ih i]
      congr 2
      omega

/-- Two lists of the same length with the same number are the same. -/
theorem leNat_injective : ∀ {bs cs : List Byte}, bs.length = cs.length → leNat bs = leNat cs → bs = cs
  | [], [], _, _ => rfl
  | b :: bs, c :: cs, hl, h => by
    have hb := b.isLt
    have hc := c.isLt
    rw [leNat_cons, leNat_cons] at h
    have h1 : b = c := BitVec.eq_of_toNat_eq (by omega)
    have h2 : bs = cs := leNat_injective (by simpa using hl) (by omega)
    rw [h1, h2]

/-! ### Lanes of a payload -/

/-- Lane `i` as a number. -/
theorem lane_toNat (d : U128) (i : Nat) : (lane d i).toNat = d.toNat / 2 ^ (8 * i) % 256 := by
  simp [lane, Nat.shiftRight_eq_div_pow]

@[simp] theorem lanes_length (n : Nat) (d : U128) : (lanes n d).length = n := by simp [lanes]

@[simp] theorem lanes_zero (d : U128) : lanes 0 d = [] := rfl

/-- One lane more. -/
theorem lanes_succ (n : Nat) (d : U128) : lanes (n + 1) d = lanes n d ++ [lane d n] := by
  simp [lanes, List.range_succ]

/-- The first `n` lanes read little-endian are the low `8n` bits of the payload (20_memory.md R52). -/
theorem leNat_lanes (n : Nat) (d : U128) : leNat (lanes n d) = d.toNat % 2 ^ (8 * n) := by
  induction n with
  | zero => simp [Nat.mod_one]
  | succ n ih =>
    rw [lanes_succ, leNat_append, ih, lanes_length, leNat_cons, leNat_nil, lane_toNat, Nat.mul_zero, Nat.add_zero,
      Nat.mul_succ, Nat.pow_add, Nat.mod_mul]

/-- A payload packed from at most sixteen bytes has their number. -/
theorem packLanes_toNat {bs : List Byte} (h : bs.length ≤ 16) : (packLanes bs).toNat = leNat bs := by
  have hlt := leNat_lt bs
  have hp : 2 ^ (8 * bs.length) ≤ 2 ^ 128 := Nat.pow_le_pow_right (by decide) (by omega)
  rw [packLanes, BitVec.toNat_ofNat, Nat.mod_eq_of_lt (Nat.lt_of_lt_of_le hlt hp)]

/-- Bytes packed into a payload and read back are the same bytes (30_encoding.md R78, 20_memory.md R51). -/
theorem lanes_packLanes {n : Nat} {bs : List Byte} (hl : bs.length = n) (hn : n ≤ 16) : lanes n (packLanes bs) = bs := by
  subst hl
  apply leNat_injective (by simp)
  rw [leNat_lanes, packLanes_toNat hn, Nat.mod_eq_of_lt (leNat_lt bs)]

/-- A seed put into a payload and read back is the same seed (30_encoding.md R74, R78). -/
@[simp] theorem seedField_setWidth (seed : U32) : seedField (seed.setWidth 128) = seed := by
  apply BitVec.eq_of_toNat_eq
  have h := seed.isLt
  simp [seedField]
  omega

/-! ### Words of a beat -/

/-- The word of a `BLK32` beat is `cmd_data[31:0]` (41_x86_32_engine.md R142). -/
theorem blk32Word_lanes (d : U128) : blk32Word (lanes 4 d) = d.extractLsb' 0 32 := by
  apply BitVec.eq_of_toNat_eq
  simp [blk32Word, le32, leNat_lanes]

/-- The word of a `TAIL32` beat is the low `8n` bits of its payload (20_memory.md R57). -/
theorem tail32Word_lanes (n : Nat) (d : U128) : tail32Word (lanes n d) = BitVec.ofNat 32 (d.toNat % 2 ^ (8 * n)) := by
  simp [tail32Word, le32, leNat_lanes]

/-- The first word of sixteen bytes is the low half of their number. -/
theorem blk128Words_fst (bs : List Byte) : (blk128Words bs).1 = BitVec.ofNat 64 (leNat bs) := by
  apply BitVec.eq_of_toNat_eq
  simp only [blk128Words, le64, BitVec.toNat_ofNat]
  by_cases h : bs.length ≤ 8
  · rw [List.take_of_length_le h]
  · have hs := leNat_append (bs.take 8) (bs.drop 8)
    rw [List.take_append_drop, List.length_take, Nat.min_eq_left (by omega)] at hs
    omega

/-- The second word of sixteen bytes is their number without the low 64 bits. -/
theorem blk128Words_snd {bs : List Byte} (h : 8 ≤ bs.length) :
    (blk128Words bs).2 = BitVec.ofNat 64 (leNat bs / 2 ^ 64) := by
  have hs := leNat_append (bs.take 8) (bs.drop 8)
  have ht := leNat_lt (bs.take 8)
  rw [List.take_append_drop, List.length_take, Nat.min_eq_left h] at hs
  rw [List.length_take, Nat.min_eq_left h] at ht
  have hd : leNat bs / 2 ^ 64 = leNat (bs.drop 8) := by omega
  rw [hd]
  rfl

@[simp] theorem padLanes_length (w : Nat) (bs : List Byte) (h : bs.length ≤ w) : (padLanes w bs).length = w := by
  simp [padLanes]
  omega

/-- The words of a tail of at most sixteen bytes, from its number (42_x64_128_engine.md R173, R178). -/
theorem tail128Words_eq {bs : List Byte} (h : bs.length ≤ 16) :
    tail128Words bs = (BitVec.ofNat 64 (leNat bs), BitVec.ofNat 64 (leNat bs / 2 ^ 64)) := by
  have hl := padLanes_length 16 bs h
  have h1 := blk128Words_fst (padLanes 16 bs)
  have h2 := blk128Words_snd (bs := padLanes 16 bs) (by omega)
  rw [leNat_padLanes] at h1 h2
  exact Prod.ext h1 h2

/-- A concatenation as a sum. -/
theorem append_toNat {a b : Nat} (x : BitVec a) (y : BitVec b) : (x ++ y).toNat = x.toNat * 2 ^ b + y.toNat := by
  rw [BitVec.toNat_append, ← Nat.shiftLeft_add_eq_or_of_lt y.isLt, Nat.shiftLeft_eq]

end Sys2Proof.Laws
end

