-- ==== Sys2Proof/Laws/Codec.lean ====
section
/-! SUPPORT. What the decoder answers, and what the encoder's opcode bytes are. -/

namespace Sys2Proof.Laws

open Sys2Proof Sys2Proof.Machine

/-- What the opcode byte must be for each answer of the decoder (30_encoding.md R73, R76). -/
def selects (op : Byte) : Selected → Prop
  | .nop => op = 0x00
  | .init32 => op = 0x10
  | .blk32 => op = 0x20
  | .tail32 n => n ≤ 3 ∧ op = BitVec.ofNat 8 (0x30 + n)
  | .fin32 => op = 0x40
  | .init128 => op = 0x90
  | .blk128 => op = 0xA0
  | .tail128 n => n ≤ 15 ∧ op = BitVec.ofNat 8 (0xB0 + n)
  | .fin128 => op = 0xC0
  | .reserved _ => True

/-- The decoder's answer tells the opcode byte. -/
theorem decodeOp_selects (op : Byte) : selects op (decodeOp op) := by
  have h : ∀ op : Byte, (match decodeOp op with
      | .nop => decide (op = 0x00)
      | .init32 => decide (op = 0x10)
      | .blk32 => decide (op = 0x20)
      | .tail32 n => decide (n ≤ 3 ∧ op = BitVec.ofNat 8 (0x30 + n))
      | .fin32 => decide (op = 0x40)
      | .init128 => decide (op = 0x90)
      | .blk128 => decide (op = 0xA0)
      | .tail128 n => decide (n ≤ 15 ∧ op = BitVec.ofNat 8 (0xB0 + n))
      | .fin128 => decide (op = 0xC0)
      | .reserved _ => true) = true := by decide
  have ho := h op
  cases hd : decodeOp op <;> simp_all [selects]

/-! ### The decoder on the encoder's opcode bytes (30_encoding.md R76) -/

theorem decode_nop (d : U128) : decode { op := 0x00, data := d } = .command .nop := by
  rw [decode, show decodeOp 0x00 = .nop by decide, withOperands]

theorem decode_init32 (d : U128) : decode { op := 0x10, data := d } = .command (.init32 (seedField d)) := by
  rw [decode, show decodeOp 0x10 = .init32 by decide, withOperands]

theorem decode_blk32 (d : U128) : decode { op := 0x20, data := d } = .command (.blk32 (lanes 4 d)) := by
  rw [decode, show decodeOp 0x20 = .blk32 by decide, withOperands]

theorem decode_fin32 (d : U128) : decode { op := 0x40, data := d } = .command .fin32 := by
  rw [decode, show decodeOp 0x40 = .fin32 by decide, withOperands]

theorem decode_init128 (d : U128) : decode { op := 0x90, data := d } = .command (.init128 (seedField d)) := by
  rw [decode, show decodeOp 0x90 = .init128 by decide, withOperands]

theorem decode_blk128 (d : U128) : decode { op := 0xA0, data := d } = .command (.blk128 (lanes 16 d)) := by
  rw [decode, show decodeOp 0xA0 = .blk128 by decide, withOperands]

theorem decode_fin128 (d : U128) : decode { op := 0xC0, data := d } = .command .fin128 := by
  rw [decode, show decodeOp 0xC0 = .fin128 by decide, withOperands]

theorem decode_tail32 {n : Nat} (h : n ≤ 3) (d : U128) :
    decode { op := BitVec.ofNat 8 (0x30 + n), data := d } = .command (.tail32 (lanes n d)) := by
  have ho := (by decide : ∀ n : Fin 4, decodeOp (BitVec.ofNat 8 (0x30 + n)) = .tail32 n) ⟨n, by omega⟩
  rw [decode, ho, withOperands]

theorem decode_tail128 {n : Nat} (h : n ≤ 15) (d : U128) :
    decode { op := BitVec.ofNat 8 (0xB0 + n), data := d } = .command (.tail128 (lanes n d)) := by
  have ho := (by decide : ∀ n : Fin 16, decodeOp (BitVec.ofNat 8 (0xB0 + n)) = .tail128 n) ⟨n, by omega⟩
  rw [decode, ho, withOperands]

/-! ### What a decoded command is -/

/-- Everything the decoder can answer with a command: the opcode byte is the command's, and its operands are the
payload's. -/
theorem decode_cases {b : Beat} {i : Instr} (h : decode b = .command i) :
    (b.op = 0x00 ∧ i = .nop) ∨
    (b.op = 0x10 ∧ i = .init32 (seedField b.data)) ∨
    (b.op = 0x20 ∧ i = .blk32 (lanes 4 b.data)) ∨
    (∃ n, n ≤ 3 ∧ b.op = BitVec.ofNat 8 (0x30 + n) ∧ i = .tail32 (lanes n b.data)) ∨
    (b.op = 0x40 ∧ i = .fin32) ∨
    (b.op = 0x90 ∧ i = .init128 (seedField b.data)) ∨
    (b.op = 0xA0 ∧ i = .blk128 (lanes 16 b.data)) ∨
    (∃ n, n ≤ 15 ∧ b.op = BitVec.ofNat 8 (0xB0 + n) ∧ i = .tail128 (lanes n b.data)) ∨
    (b.op = 0xC0 ∧ i = .fin128) := by
  have hs := decodeOp_selects b.op
  unfold decode at h
  cases hd : decodeOp b.op <;> rw [hd] at h hs <;> simp only [withOperands, Decoded.command.injEq, selects] at h hs
  all_goals first | (subst h; simp [hs]; done) | skip
  · exact .inr (.inr (.inr (.inl ⟨_, hs.1, hs.2, h.symm⟩)))
  · exact .inr (.inr (.inr (.inr (.inr (.inr (.inr (.inl ⟨_, hs.1, hs.2, h.symm⟩)))))))
  · cases h

/-- A decoded command is well formed. -/
theorem decode_wf {b : Beat} {i : Instr} (h : decode b = .command i) : i.wf = true := by
  rcases decode_cases h with ⟨_, rfl⟩ | ⟨_, rfl⟩ | ⟨_, rfl⟩ | ⟨n, hn, _, rfl⟩ | ⟨_, rfl⟩ | ⟨_, rfl⟩ | ⟨_, rfl⟩ |
    ⟨n, hn, _, rfl⟩ | ⟨_, rfl⟩ <;> simp [Instr.wf, *]

/-- The encoder's opcode byte of a decoded command is the byte it was decoded from, so `EOP` records the byte the host
presented (60_exceptions.md R211). -/
theorem opcodeOf_decode {b : Beat} {i : Instr} (h : decode b = .command i) : opcodeOf i = b.op := by
  rcases decode_cases h with ⟨ho, rfl⟩ | ⟨ho, rfl⟩ | ⟨ho, rfl⟩ | ⟨n, hn, ho, rfl⟩ | ⟨ho, rfl⟩ | ⟨ho, rfl⟩ | ⟨ho, rfl⟩ |
    ⟨n, hn, ho, rfl⟩ | ⟨ho, rfl⟩ <;> rw [ho] <;> simp only [opcodeOf, lanes_length]

end Sys2Proof.Laws
end

