-- ==== Sys2Proof/Laws/State.lean ====
section
/-! SUPPORT. What each register update of the model leaves in each field of State: one lemma a field and an update. -/

namespace Sys2Proof.Laws

open Sys2Proof Sys2Proof.Machine

/-! ### writeE32 -/

@[simp] theorem writeE32_h32 (h len : U32) (ph : Phase) (s : State) : (writeE32 h len ph s).h32 = h := (rfl)
@[simp] theorem writeE32_len32 (h len : U32) (ph : Phase) (s : State) : (writeE32 h len ph s).len32 = len := (rfl)
@[simp] theorem writeE32_ph32 (h len : U32) (ph : Phase) (s : State) : (writeE32 h len ph s).ph32 = ph := (rfl)
@[simp] theorem writeE32_h1 (h len : U32) (ph : Phase) (s : State) : (writeE32 h len ph s).h1 = s.h1 := (rfl)
@[simp] theorem writeE32_h2 (h len : U32) (ph : Phase) (s : State) : (writeE32 h len ph s).h2 = s.h2 := (rfl)
@[simp] theorem writeE32_len128 (h len : U32) (ph : Phase) (s : State) : (writeE32 h len ph s).len128 = s.len128 := (rfl)
@[simp] theorem writeE32_ph128 (h len : U32) (ph : Phase) (s : State) : (writeE32 h len ph s).ph128 = s.ph128 := (rfl)
@[simp] theorem writeE32_err (h len : U32) (ph : Phase) (s : State) : (writeE32 h len ph s).err = s.err := (rfl)
@[simp] theorem writeE32_ecode (h len : U32) (ph : Phase) (s : State) : (writeE32 h len ph s).ecode = s.ecode := (rfl)
@[simp] theorem writeE32_eop (h len : U32) (ph : Phase) (s : State) : (writeE32 h len ph s).eop = s.eop := (rfl)
@[simp] theorem writeE32_held (h len : U32) (ph : Phase) (s : State) : (writeE32 h len ph s).held = s.held := (rfl)
@[simp] theorem writeE32_rst (h len : U32) (ph : Phase) (s : State) : (writeE32 h len ph s).rst = s.rst := (rfl)
@[simp] theorem writeE32_port (h len : U32) (ph : Phase) (s : State) : (writeE32 h len ph s).port = s.port := (rfl)

/-! ### writeE128 -/

@[simp] theorem writeE128_h32 (hs : U64 × U64) (len : U64) (ph : Phase) (s : State) : (writeE128 hs len ph s).h32 = s.h32 := (rfl)
@[simp] theorem writeE128_len32 (hs : U64 × U64) (len : U64) (ph : Phase) (s : State) : (writeE128 hs len ph s).len32 = s.len32 := (rfl)
@[simp] theorem writeE128_ph32 (hs : U64 × U64) (len : U64) (ph : Phase) (s : State) : (writeE128 hs len ph s).ph32 = s.ph32 := (rfl)
@[simp] theorem writeE128_h1 (hs : U64 × U64) (len : U64) (ph : Phase) (s : State) : (writeE128 hs len ph s).h1 = hs.1 := (rfl)
@[simp] theorem writeE128_h2 (hs : U64 × U64) (len : U64) (ph : Phase) (s : State) : (writeE128 hs len ph s).h2 = hs.2 := (rfl)
@[simp] theorem writeE128_len128 (hs : U64 × U64) (len : U64) (ph : Phase) (s : State) : (writeE128 hs len ph s).len128 = len := (rfl)
@[simp] theorem writeE128_ph128 (hs : U64 × U64) (len : U64) (ph : Phase) (s : State) : (writeE128 hs len ph s).ph128 = ph := (rfl)
@[simp] theorem writeE128_err (hs : U64 × U64) (len : U64) (ph : Phase) (s : State) : (writeE128 hs len ph s).err = s.err := (rfl)
@[simp] theorem writeE128_ecode (hs : U64 × U64) (len : U64) (ph : Phase) (s : State) : (writeE128 hs len ph s).ecode = s.ecode := (rfl)
@[simp] theorem writeE128_eop (hs : U64 × U64) (len : U64) (ph : Phase) (s : State) : (writeE128 hs len ph s).eop = s.eop := (rfl)
@[simp] theorem writeE128_held (hs : U64 × U64) (len : U64) (ph : Phase) (s : State) : (writeE128 hs len ph s).held = s.held := (rfl)
@[simp] theorem writeE128_rst (hs : U64 × U64) (len : U64) (ph : Phase) (s : State) : (writeE128 hs len ph s).rst = s.rst := (rfl)
@[simp] theorem writeE128_port (hs : U64 × U64) (len : U64) (ph : Phase) (s : State) : (writeE128 hs len ph s).port = s.port := (rfl)

/-! ### raiseFault -/

@[simp] theorem raiseFault_h32 (c : Cause) (op : Byte) (s : State) : (raiseFault c op s).h32 = s.h32 := (rfl)
@[simp] theorem raiseFault_len32 (c : Cause) (op : Byte) (s : State) : (raiseFault c op s).len32 = s.len32 := (rfl)
@[simp] theorem raiseFault_ph32 (c : Cause) (op : Byte) (s : State) : (raiseFault c op s).ph32 = s.ph32 := (rfl)
@[simp] theorem raiseFault_h1 (c : Cause) (op : Byte) (s : State) : (raiseFault c op s).h1 = s.h1 := (rfl)
@[simp] theorem raiseFault_h2 (c : Cause) (op : Byte) (s : State) : (raiseFault c op s).h2 = s.h2 := (rfl)
@[simp] theorem raiseFault_len128 (c : Cause) (op : Byte) (s : State) : (raiseFault c op s).len128 = s.len128 := (rfl)
@[simp] theorem raiseFault_ph128 (c : Cause) (op : Byte) (s : State) : (raiseFault c op s).ph128 = s.ph128 := (rfl)
@[simp] theorem raiseFault_err (c : Cause) (op : Byte) (s : State) : (raiseFault c op s).err = true := (rfl)
@[simp] theorem raiseFault_ecode (c : Cause) (op : Byte) (s : State) : (raiseFault c op s).ecode = c := (rfl)
@[simp] theorem raiseFault_eop (c : Cause) (op : Byte) (s : State) : (raiseFault c op s).eop = op := (rfl)
@[simp] theorem raiseFault_held (c : Cause) (op : Byte) (s : State) : (raiseFault c op s).held = s.held := (rfl)
@[simp] theorem raiseFault_rst (c : Cause) (op : Byte) (s : State) : (raiseFault c op s).rst = s.rst := (rfl)
@[simp] theorem raiseFault_port (c : Cause) (op : Byte) (s : State) : (raiseFault c op s).port = s.port := (rfl)

/-! ### withInput -/

@[simp] theorem withInput_h32 (r : List Bool) (p : List Move) (s : State) : (withInput r p s).h32 = s.h32 := (rfl)
@[simp] theorem withInput_len32 (r : List Bool) (p : List Move) (s : State) : (withInput r p s).len32 = s.len32 := (rfl)
@[simp] theorem withInput_ph32 (r : List Bool) (p : List Move) (s : State) : (withInput r p s).ph32 = s.ph32 := (rfl)
@[simp] theorem withInput_h1 (r : List Bool) (p : List Move) (s : State) : (withInput r p s).h1 = s.h1 := (rfl)
@[simp] theorem withInput_h2 (r : List Bool) (p : List Move) (s : State) : (withInput r p s).h2 = s.h2 := (rfl)
@[simp] theorem withInput_len128 (r : List Bool) (p : List Move) (s : State) : (withInput r p s).len128 = s.len128 := (rfl)
@[simp] theorem withInput_ph128 (r : List Bool) (p : List Move) (s : State) : (withInput r p s).ph128 = s.ph128 := (rfl)
@[simp] theorem withInput_err (r : List Bool) (p : List Move) (s : State) : (withInput r p s).err = s.err := (rfl)
@[simp] theorem withInput_ecode (r : List Bool) (p : List Move) (s : State) : (withInput r p s).ecode = s.ecode := (rfl)
@[simp] theorem withInput_eop (r : List Bool) (p : List Move) (s : State) : (withInput r p s).eop = s.eop := (rfl)
@[simp] theorem withInput_held (r : List Bool) (p : List Move) (s : State) : (withInput r p s).held = s.held := (rfl)
@[simp] theorem withInput_rst (r : List Bool) (p : List Move) (s : State) : (withInput r p s).rst = r := (rfl)
@[simp] theorem withInput_port (r : List Bool) (p : List Move) (s : State) : (withInput r p s).port = p := (rfl)

/-! ### release -/

@[simp] theorem release_h32 (s : State) : (release s).h32 = s.h32 := (rfl)
@[simp] theorem release_len32 (s : State) : (release s).len32 = s.len32 := (rfl)
@[simp] theorem release_ph32 (s : State) : (release s).ph32 = s.ph32 := (rfl)
@[simp] theorem release_h1 (s : State) : (release s).h1 = s.h1 := (rfl)
@[simp] theorem release_h2 (s : State) : (release s).h2 = s.h2 := (rfl)
@[simp] theorem release_len128 (s : State) : (release s).len128 = s.len128 := (rfl)
@[simp] theorem release_ph128 (s : State) : (release s).ph128 = s.ph128 := (rfl)
@[simp] theorem release_err (s : State) : (release s).err = s.err := (rfl)
@[simp] theorem release_ecode (s : State) : (release s).ecode = s.ecode := (rfl)
@[simp] theorem release_eop (s : State) : (release s).eop = s.eop := (rfl)
@[simp] theorem release_held (s : State) : (release s).held = false := (rfl)
@[simp] theorem release_rst (s : State) : (release s).rst = s.rst := (rfl)
@[simp] theorem release_port (s : State) : (release s).port = s.port := (rfl)

/-! ### resetRegisters -/

@[simp] theorem resetRegisters_h32 (s : State) : (resetRegisters s).h32 = 0 := (rfl)
@[simp] theorem resetRegisters_len32 (s : State) : (resetRegisters s).len32 = 0 := (rfl)
@[simp] theorem resetRegisters_ph32 (s : State) : (resetRegisters s).ph32 = .idle := (rfl)
@[simp] theorem resetRegisters_h1 (s : State) : (resetRegisters s).h1 = 0 := (rfl)
@[simp] theorem resetRegisters_h2 (s : State) : (resetRegisters s).h2 = 0 := (rfl)
@[simp] theorem resetRegisters_len128 (s : State) : (resetRegisters s).len128 = 0 := (rfl)
@[simp] theorem resetRegisters_ph128 (s : State) : (resetRegisters s).ph128 = .idle := (rfl)
@[simp] theorem resetRegisters_err (s : State) : (resetRegisters s).err = false := (rfl)
@[simp] theorem resetRegisters_ecode (s : State) : (resetRegisters s).ecode = .noFault := (rfl)
@[simp] theorem resetRegisters_eop (s : State) : (resetRegisters s).eop = 0 := (rfl)
@[simp] theorem resetRegisters_held (s : State) : (resetRegisters s).held = true := (rfl)
@[simp] theorem resetRegisters_rst (s : State) : (resetRegisters s).rst = s.rst := (rfl)
@[simp] theorem resetRegisters_port (s : State) : (resetRegisters s).port = s.port := (rfl)

/-! ### pastEdge -/

@[simp] theorem pastEdge_h32 (s : State) : (pastEdge s).h32 = s.h32 := (rfl)
@[simp] theorem pastEdge_len32 (s : State) : (pastEdge s).len32 = s.len32 := (rfl)
@[simp] theorem pastEdge_ph32 (s : State) : (pastEdge s).ph32 = s.ph32 := (rfl)
@[simp] theorem pastEdge_h1 (s : State) : (pastEdge s).h1 = s.h1 := (rfl)
@[simp] theorem pastEdge_h2 (s : State) : (pastEdge s).h2 = s.h2 := (rfl)
@[simp] theorem pastEdge_len128 (s : State) : (pastEdge s).len128 = s.len128 := (rfl)
@[simp] theorem pastEdge_ph128 (s : State) : (pastEdge s).ph128 = s.ph128 := (rfl)
@[simp] theorem pastEdge_err (s : State) : (pastEdge s).err = s.err := (rfl)
@[simp] theorem pastEdge_ecode (s : State) : (pastEdge s).ecode = s.ecode := (rfl)
@[simp] theorem pastEdge_eop (s : State) : (pastEdge s).eop = s.eop := (rfl)
@[simp] theorem pastEdge_held (s : State) : (pastEdge s).held = s.held := (rfl)
@[simp] theorem pastEdge_rst (s : State) : (pastEdge s).rst = s.rst.tail := (rfl)
@[simp] theorem pastEdge_port (s : State) : (pastEdge s).port = afterWaiting s.port := (rfl)

/-! ### pastBeat -/

@[simp] theorem pastBeat_h32 (s : State) : (pastBeat s).h32 = s.h32 := (rfl)
@[simp] theorem pastBeat_len32 (s : State) : (pastBeat s).len32 = s.len32 := (rfl)
@[simp] theorem pastBeat_ph32 (s : State) : (pastBeat s).ph32 = s.ph32 := (rfl)
@[simp] theorem pastBeat_h1 (s : State) : (pastBeat s).h1 = s.h1 := (rfl)
@[simp] theorem pastBeat_h2 (s : State) : (pastBeat s).h2 = s.h2 := (rfl)
@[simp] theorem pastBeat_len128 (s : State) : (pastBeat s).len128 = s.len128 := (rfl)
@[simp] theorem pastBeat_ph128 (s : State) : (pastBeat s).ph128 = s.ph128 := (rfl)
@[simp] theorem pastBeat_err (s : State) : (pastBeat s).err = s.err := (rfl)
@[simp] theorem pastBeat_ecode (s : State) : (pastBeat s).ecode = s.ecode := (rfl)
@[simp] theorem pastBeat_eop (s : State) : (pastBeat s).eop = s.eop := (rfl)
@[simp] theorem pastBeat_held (s : State) : (pastBeat s).held = s.held := (rfl)
@[simp] theorem pastBeat_rst (s : State) : (pastBeat s).rst = s.rst.tail := (rfl)
@[simp] theorem pastBeat_port (s : State) : (pastBeat s).port = s.port.tail := (rfl)

/-! ### presenting -/

@[simp] theorem presenting_h32 (b : Beat) (s : State) : (presenting b s).h32 = s.h32 := (rfl)
@[simp] theorem presenting_len32 (b : Beat) (s : State) : (presenting b s).len32 = s.len32 := (rfl)
@[simp] theorem presenting_ph32 (b : Beat) (s : State) : (presenting b s).ph32 = s.ph32 := (rfl)
@[simp] theorem presenting_h1 (b : Beat) (s : State) : (presenting b s).h1 = s.h1 := (rfl)
@[simp] theorem presenting_h2 (b : Beat) (s : State) : (presenting b s).h2 = s.h2 := (rfl)
@[simp] theorem presenting_len128 (b : Beat) (s : State) : (presenting b s).len128 = s.len128 := (rfl)
@[simp] theorem presenting_ph128 (b : Beat) (s : State) : (presenting b s).ph128 = s.ph128 := (rfl)
@[simp] theorem presenting_err (b : Beat) (s : State) : (presenting b s).err = s.err := (rfl)
@[simp] theorem presenting_ecode (b : Beat) (s : State) : (presenting b s).ecode = s.ecode := (rfl)
@[simp] theorem presenting_eop (b : Beat) (s : State) : (presenting b s).eop = s.eop := (rfl)
@[simp] theorem presenting_held (b : Beat) (s : State) : (presenting b s).held = false := (rfl)
@[simp] theorem presenting_rst (b : Beat) (s : State) : (presenting b s).rst = false :: s.rst := (rfl)
@[simp] theorem presenting_port (b : Beat) (s : State) : (presenting b s).port = .present b :: s.port := (rfl)

/-! ### Updates that meet -/

/-- Only the last input counts. -/
@[simp] theorem withInput_withInput (r r' : List Bool) (p p' : List Move) (s : State) :
    withInput r p (withInput r' p' s) = withInput r p s := (rfl)

/-- Putting back the input that is there changes nothing. -/
@[simp] theorem withInput_self (s : State) : withInput s.rst s.port s = s := (rfl)

/-- Reset does not look at the registers. -/
@[simp] theorem resetRegisters_withInput (r : List Bool) (p : List Move) (s : State) :
    resetRegisters (withInput r p s) = withInput r p (resetRegisters s) := (rfl)

/-- Leaving reset and replacing the input are independent. -/
@[simp] theorem release_withInput (r : List Bool) (p : List Move) (s : State) :
    release (withInput r p s) = withInput r p (release s) := (rfl)

/-- A block that is not held is not changed by its release. -/
theorem release_self {s : State} (h : s.held = false) : release s = s := by
  cases s
  cases h
  rfl

/-- The input and the registers of E32 are written independently. -/
@[simp] theorem writeE32_withInput (h len : U32) (ph : Phase) (r : List Bool) (p : List Move) (s : State) :
    writeE32 h len ph (withInput r p s) = withInput r p (writeE32 h len ph s) := (rfl)

/-- The input and the registers of E128 are written independently. -/
@[simp] theorem writeE128_withInput (hs : U64 × U64) (len : U64) (ph : Phase) (r : List Bool) (p : List Move) (s : State) :
    writeE128 hs len ph (withInput r p s) = withInput r p (writeE128 hs len ph s) := (rfl)

/-- The input and the fault registers are written independently. -/
@[simp] theorem raiseFault_withInput (c : Cause) (op : Byte) (r : List Bool) (p : List Move) (s : State) :
    raiseFault c op (withInput r p s) = withInput r p (raiseFault c op s) := (rfl)

/-! ### The command port -/

@[simp] theorem nextRst_presenting (b : Beat) (s : State) : nextRst (presenting b s) = false := (rfl)

@[simp] theorem cmdReady_presenting (b : Beat) (s : State) : cmdReady (presenting b s) = true := (rfl)

@[simp] theorem accepted_presenting (b : Beat) (s : State) : accepted (presenting b s) = some b := (rfl)

/-- Once the presented beat is past, only the release of the block is left of `presenting`. -/
@[simp] theorem pastBeat_presenting (b : Beat) (s : State) : pastBeat (presenting b s) = release s := (rfl)

/-- A beat is accepted only by a ready block, and it is the one the host presents. -/
theorem accepted_some {s : State} {b : Beat} (h : accepted s = some b) :
    cmdReady s = true ∧ s.port = .present b :: s.port.tail := by
  unfold accepted at h
  split at h
  · cases h
  · cases h
  · rename_i hp
    split at h
    · cases h
      exact ⟨‹_›, by rw [hp]; rfl⟩
    · cases h

/-- A block that accepts a beat is out of reset and not held. -/
theorem cmdReady_true {s : State} (h : cmdReady s = true) : nextRst s = false ∧ s.held = false := by
  simpa [cmdReady] using h

/-- A presented beat is accepted by a ready block. -/
theorem accepted_of {s : State} {b : Beat} {rest : List Move} (hp : s.port = .present b :: rest)
    (hr : nextRst s = false) (hh : s.held = false) : accepted s = some b := by
  simp [accepted, hp, cmdReady, hr, hh]

/-- A block that is not ready accepts nothing. -/
theorem accepted_none {s : State} (h : cmdReady s = false) : accepted s = none := by
  unfold accepted
  split <;> simp [h]

end Sys2Proof.Laws
end

