-- ==== Sys2Proof/Laws/Ops.lean ====
section
/-! SUPPORT. What the shared operations, a command and a step can do, said once. -/

namespace Sys2Proof.Laws

open Sys2Proof Sys2Proof.Machine

/-! ### The shared operations -/

/-- A beat either finds `ERR` set and changes nothing, or does what it does. -/
theorem unlessFaulted_cases {s t u : State} (h : unlessFaulted s t = .next u) :
    (s.err = true ∧ u = s) ∨ (s.err = false ∧ u = t) := by
  cases he : s.err <;> simp_all [unlessFaulted]

/-- With `ERR` clear the beat does what it does. -/
theorem unlessFaulted_clear {s t : State} (h : s.err = false) : unlessFaulted s t = .next t := by
  simp [unlessFaulted, h]

/-- With `ERR` set the beat is discarded. -/
theorem unlessFaulted_set {s t : State} (h : s.err = true) : unlessFaulted s t = .next s := by
  simp [unlessFaulted, h]

/-- A command that its phase may forbid is discarded, faults, or has its effect. -/
theorem sequenced_cases {legal : Bool} {op : Byte} {s t u : State} (h : sequenced legal op s t = .next u) :
    (s.err = true ∧ u = s) ∨ (s.err = false ∧ legal = false ∧ u = raiseFault .sequence op s) ∨
      (s.err = false ∧ legal = true ∧ u = t) := by
  rcases unlessFaulted_cases h with ⟨he, rfl⟩ | ⟨he, rfl⟩
  · exact .inl ⟨he, rfl⟩
  · cases legal
    · exact .inr (.inl ⟨he, rfl, rfl⟩)
    · exact .inr (.inr ⟨he, rfl, rfl⟩)

/-- In its phase a command has its effect. -/
theorem sequenced_legal {op : Byte} {s t : State} (h : s.err = false) : sequenced true op s t = .next t :=
  unlessFaulted_clear h

/-- Out of its phase a command faults. -/
theorem sequenced_illegal {op : Byte} {s t : State} (h : s.err = false) :
    sequenced false op s t = .next (raiseFault .sequence op s) :=
  unlessFaulted_clear h

/-! ### A command -/

/-- The effect of a command in its phase with `ERR = 0`, apart from the checks before it. -/
def effect : Instr → State → State
  | .nop, s => s
  | .init32 seed, s => writeE32 seed 0 .absorb s
  | .blk32 bytes, s => writeE32 (hround32 s.h32 (kmix32 (blk32Word bytes))) (s.len32 + 4) s.ph32 s
  | .tail32 bytes, s =>
    writeE32 (s.h32 ^^^ kmix32 (tail32Word bytes)) (s.len32 + BitVec.ofNat 32 bytes.length) .tailed s
  | .fin32, s => writeE32 (fmix32 (s.h32 ^^^ s.len32)) s.len32 .done s
  | .init128 seed, s => writeE128 (zext64 seed, zext64 seed) 0 .absorb s
  | .blk128 bytes, s =>
    writeE128 (blkround128 s.h1 s.h2 (blk128Words bytes).1 (blk128Words bytes).2) (s.len128 + 16) s.ph128 s
  | .tail128 bytes, s =>
    writeE128 (s.h1 ^^^ kmix1w64 (tail128Words bytes).1, s.h2 ^^^ kmix2w64 (tail128Words bytes).2)
      (s.len128 + BitVec.ofNat 64 bytes.length) .tailed s
  | .fin128, s => writeE128 (final128 s.h1 s.h2 s.len128) s.len128 .done s

/-! Each command's effect, as an equation that simp rewrites with and the kernel need not unfold. -/

@[simp] theorem effect_nop (s : State) : effect .nop s = s := (rfl)

@[simp] theorem effect_init32 (seed : U32) (s : State) : effect (.init32 seed) s = writeE32 seed 0 .absorb s := (rfl)

@[simp] theorem effect_blk32 (bytes : List Byte) (s : State) :
    effect (.blk32 bytes) s = writeE32 (hround32 s.h32 (kmix32 (blk32Word bytes))) (s.len32 + 4) s.ph32 s := (rfl)

@[simp] theorem effect_tail32 (bytes : List Byte) (s : State) :
    effect (.tail32 bytes) s =
      writeE32 (s.h32 ^^^ kmix32 (tail32Word bytes)) (s.len32 + BitVec.ofNat 32 bytes.length) .tailed s := (rfl)

@[simp] theorem effect_fin32 (s : State) :
    effect .fin32 s = writeE32 (fmix32 (s.h32 ^^^ s.len32)) s.len32 .done s := (rfl)

@[simp] theorem effect_init128 (seed : U32) (s : State) :
    effect (.init128 seed) s = writeE128 (zext64 seed, zext64 seed) 0 .absorb s := (rfl)

@[simp] theorem effect_blk128 (bytes : List Byte) (s : State) :
    effect (.blk128 bytes) s =
      writeE128 (blkround128 s.h1 s.h2 (blk128Words bytes).1 (blk128Words bytes).2) (s.len128 + 16) s.ph128 s := (rfl)

@[simp] theorem effect_tail128 (bytes : List Byte) (s : State) :
    effect (.tail128 bytes) s =
      writeE128 (s.h1 ^^^ kmix1w64 (tail128Words bytes).1, s.h2 ^^^ kmix2w64 (tail128Words bytes).2)
        (s.len128 + BitVec.ofNat 64 bytes.length) .tailed s := (rfl)

@[simp] theorem effect_fin128 (s : State) :
    effect .fin128 s = writeE128 (final128 s.h1 s.h2 s.len128) s.len128 .done s := (rfl)

/-- A write of E32 as a record. -/
theorem writeE32_eq (h len : U32) (ph : Phase) (s : State) :
    writeE32 h len ph s = { s with h32 := h, len32 := len, ph32 := ph } := (rfl)

/-- A write of E128 as a record. -/
theorem writeE128_eq (lanes : U64 × U64) (len : U64) (ph : Phase) (s : State) :
    writeE128 lanes len ph s = { s with h1 := lanes.1, h2 := lanes.2, len128 := len, ph128 := ph } := (rfl)

/-- A write of E32 in a released block, as a record. -/
theorem writeE32_release_eq (h len : U32) (ph : Phase) (s : State) :
    writeE32 h len ph (release s) = { s with h32 := h, len32 := len, ph32 := ph, held := false } := (rfl)

/-- A write of E128 in a released block, as a record. -/
theorem writeE128_release_eq (lanes : U64 × U64) (len : U64) (ph : Phase) (s : State) :
    writeE128 lanes len ph (release s) =
      { s with h1 := lanes.1, h2 := lanes.2, len128 := len, ph128 := ph, held := false } := (rfl)

/-- A fault as a record. -/
theorem raiseFault_eq (c : Cause) (op : Byte) (s : State) :
    raiseFault c op s = { s with err := true, ecode := c, eop := op } := (rfl)

/-- The state after an accepted command: discarded, faulted, or with its effect. -/
def commandResult (i : Instr) (s : State) : State :=
  if s.err then s else if inOrder i s.ph32 s.ph128 then effect i s else raiseFault .sequence (opcodeOf i) s

/-- `exec` said once, for every command. -/
theorem exec_eq (i : Instr) (s : State) : exec i s = .next (commandResult i s) := by
  cases i with
  | nop => cases he : s.err <;> simp [exec, execNop, commandResult, inOrder]
  | init32 seed => rfl
  | blk32 bytes => rfl
  | tail32 bytes => rfl
  | fin32 => rfl
  | init128 seed => rfl
  | blk128 bytes => rfl
  | tail128 bytes => rfl
  | fin128 => rfl

/-- The three things that can become of an accepted command. -/
theorem exec_cases {i : Instr} {s t : State} (h : exec i s = .next t) :
    (s.err = true ∧ t = s) ∨
    (s.err = false ∧ inOrder i s.ph32 s.ph128 = false ∧ t = raiseFault .sequence (opcodeOf i) s) ∨
    (s.err = false ∧ inOrder i s.ph32 s.ph128 = true ∧ t = effect i s) := by
  rw [exec_eq] at h
  simp only [Host.Outcome.next.injEq, commandResult] at h
  subst h
  cases s.err <;> cases inOrder i s.ph32 s.ph128 <;> simp

/-- An effect leaves the host's moves alone. -/
@[simp] theorem effect_port (i : Instr) (s : State) : (effect i s).port = s.port := by
  cases i <;> simp

/-- An effect leaves `rst` alone. -/
@[simp] theorem effect_rst (i : Instr) (s : State) : (effect i s).rst = s.rst := by
  cases i <;> simp

/-- An effect leaves the block held or not. -/
@[simp] theorem effect_held (i : Instr) (s : State) : (effect i s).held = s.held := by
  cases i <;> simp

/-- An effect leaves `ERR` alone. -/
@[simp] theorem effect_err (i : Instr) (s : State) : (effect i s).err = s.err := by
  cases i <;> simp

/-- An effect leaves `ECODE` alone. -/
@[simp] theorem effect_ecode (i : Instr) (s : State) : (effect i s).ecode = s.ecode := by
  cases i <;> simp

/-- An effect leaves `EOP` alone. -/
@[simp] theorem effect_eop (i : Instr) (s : State) : (effect i s).eop = s.eop := by
  cases i <;> simp

/-- An effect of no command of E32 leaves `h32`. -/
theorem effect_h32 {i : Instr} (s : State) (h : isE32 i = false) : (effect i s).h32 = s.h32 := by
  revert h; cases i <;> simp [isE32]

/-- An effect of no command of E32 leaves `len32`. -/
theorem effect_len32 {i : Instr} (s : State) (h : isE32 i = false) : (effect i s).len32 = s.len32 := by
  revert h; cases i <;> simp [isE32]

/-- An effect of no command of E32 leaves `ph32`. -/
theorem effect_ph32 {i : Instr} (s : State) (h : isE32 i = false) : (effect i s).ph32 = s.ph32 := by
  revert h; cases i <;> simp [isE32]

/-- An effect of no command of E128 leaves `h1`. -/
theorem effect_h1 {i : Instr} (s : State) (h : isE128 i = false) : (effect i s).h1 = s.h1 := by
  revert h; cases i <;> simp [isE128]

/-- An effect of no command of E128 leaves `h2`. -/
theorem effect_h2 {i : Instr} (s : State) (h : isE128 i = false) : (effect i s).h2 = s.h2 := by
  revert h; cases i <;> simp [isE128]

/-- An effect of no command of E128 leaves `len128`. -/
theorem effect_len128 {i : Instr} (s : State) (h : isE128 i = false) : (effect i s).len128 = s.len128 := by
  revert h; cases i <;> simp [isE128]

/-- An effect of no command of E128 leaves `ph128`. -/
theorem effect_ph128 {i : Instr} (s : State) (h : isE128 i = false) : (effect i s).ph128 = s.ph128 := by
  revert h; cases i <;> simp [isE128]

/-- The phase of E32 after a command's effect (10_state.md R33). -/
def phaseAfter32 : Instr → Phase → Phase
  | .nop, p => p
  | .init32 _, _ => .absorb
  | .blk32 _, p => p
  | .tail32 _, _ => .tailed
  | .fin32, _ => .done
  | .init128 _, p => p
  | .blk128 _, p => p
  | .tail128 _, p => p
  | .fin128, p => p

/-- An effect moves the phase of E32 by the table. -/
theorem effect_ph32_eq (i : Instr) (s : State) : (effect i s).ph32 = phaseAfter32 i s.ph32 := by
  cases i <;> simp [phaseAfter32]

/-- The phase of E128 after a command's effect (10_state.md R33). -/
def phaseAfter128 : Instr → Phase → Phase
  | .nop, p => p
  | .init128 _, _ => .absorb
  | .blk128 _, p => p
  | .tail128 _, _ => .tailed
  | .fin128, _ => .done
  | .init32 _, p => p
  | .blk32 _, p => p
  | .tail32 _, p => p
  | .fin32, p => p

/-- An effect moves the phase of E128 by the table. -/
theorem effect_ph128_eq (i : Instr) (s : State) : (effect i s).ph128 = phaseAfter128 i s.ph128 := by
  cases i <;> simp [phaseAfter128]

/-- An effect in the same registers with other input is the same. -/
theorem effect_withInput (i : Instr) (r : List Bool) (p : List Move) (s : State) :
    effect i (withInput r p s) = withInput r p (effect i s) := by
  cases i <;> simp

/-- A command leaves the host's moves alone. -/
@[simp] theorem commandResult_port (i : Instr) (s : State) : (commandResult i s).port = s.port := by
  cases he : s.err <;> cases ho : inOrder i s.ph32 s.ph128 <;> simp [commandResult, he, ho]

/-- A command leaves `rst` alone. -/
@[simp] theorem commandResult_rst (i : Instr) (s : State) : (commandResult i s).rst = s.rst := by
  cases he : s.err <;> cases ho : inOrder i s.ph32 s.ph128 <;> simp [commandResult, he, ho]

/-- A command leaves the block held or not. -/
@[simp] theorem commandResult_held (i : Instr) (s : State) : (commandResult i s).held = s.held := by
  cases he : s.err <;> cases ho : inOrder i s.ph32 s.ph128 <;> simp [commandResult, he, ho]

/-- A command in the same registers with other input does the same. -/
theorem commandResult_withInput (i : Instr) (r : List Bool) (p : List Move) (s : State) :
    commandResult i (withInput r p s) = withInput r p (commandResult i s) := by
  cases he : s.err <;> cases ho : inOrder i s.ph32 s.ph128 <;>
    simp [commandResult, he, ho, effect_withInput]

/-! ### A beat, an edge, a step -/

/-- The state after an accepted beat. -/
def beatResult (b : Beat) (s : State) : State :=
  match decode b with
  | .command i => commandResult i s
  | .reserved _ => if s.err then s else raiseFault .illegalOp b.op s

/-- `acceptBeat` said once. -/
theorem acceptBeat_eq (b : Beat) (s : State) : acceptBeat b s = .next (beatResult b s) := by
  unfold acceptBeat beatResult
  cases decode b with
  | command i => exact exec_eq i s
  | reserved w => rfl

/-- A beat in the same registers with other input does the same. -/
theorem beatResult_withInput (b : Beat) (r : List Bool) (p : List Move) (s : State) :
    beatResult b (withInput r p s) = withInput r p (beatResult b s) := by
  unfold beatResult
  cases decode b with
  | command i => exact commandResult_withInput i r p s
  | reserved w =>
    cases h : s.err <;> simp [h]

/-- A beat leaves the host's moves alone. -/
@[simp] theorem beatResult_port (b : Beat) (s : State) : (beatResult b s).port = s.port := by
  unfold beatResult
  cases decode b <;> cases h : s.err <;> simp

/-- A beat leaves `rst` alone. -/
@[simp] theorem beatResult_rst (b : Beat) (s : State) : (beatResult b s).rst = s.rst := by
  unfold beatResult
  cases decode b <;> cases h : s.err <;> simp

/-- A beat leaves the block held or not. -/
@[simp] theorem beatResult_held (b : Beat) (s : State) : (beatResult b s).held = s.held := by
  unfold beatResult
  cases decode b <;> cases h : s.err <;> simp

/-- A beat and an edge past commute. -/
theorem beatResult_pastEdge (b : Beat) (s : State) : beatResult b (pastEdge s) = pastEdge (beatResult b s) := by
  simp [pastEdge, beatResult_withInput]

/-- A beat and its edge past commute. -/
theorem beatResult_pastBeat (b : Beat) (s : State) : beatResult b (pastBeat s) = pastBeat (beatResult b s) := by
  simp [pastBeat, beatResult_withInput]

/-- With `ERR` set every beat is discarded. -/
theorem beatResult_err {b : Beat} {s : State} (h : s.err = true) : beatResult b s = s := by
  unfold beatResult
  cases decode b <;> simp [commandResult, h]

/-- A step in reset. -/
theorem step_reset {s : State} (h : nextRst s = true) : step s = .next (pastEdge (resetRegisters s)) := by
  simp [step, takeEdge, h]

/-- A step that accepts a beat. -/
theorem step_accepts {s : State} {b : Beat} (h : accepted s = some b) : step s = .next (pastBeat (beatResult b s)) := by
  have hr := (cmdReady_true (accepted_some h).1).1
  simp [step, takeEdge, h, hr, acceptBeat_eq, beatResult_pastBeat]

/-- A step out of reset that accepts nothing. -/
theorem step_waits {s : State} (hr : nextRst s = false) (h : accepted s = none) :
    step s = .next (pastEdge (release s)) := by
  simp [step, takeEdge, h, hr]

/-- Everything a step can do: reset, wait, or accept a beat. -/
theorem step_cases {s t : State} (h : step s = .next t) :
    (nextRst s = true ∧ t = pastEdge (resetRegisters s)) ∨
    (nextRst s = false ∧ accepted s = none ∧ t = pastEdge (release s)) ∨
    (nextRst s = false ∧ ∃ b, accepted s = some b ∧ t = pastBeat (beatResult b s)) := by
  cases hr : nextRst s with
  | true =>
    rw [step_reset hr] at h
    cases h
    exact .inl ⟨rfl, rfl⟩
  | false =>
    cases ha : accepted s with
    | none =>
      rw [step_waits hr ha] at h
      cases h
      exact .inr (.inl ⟨rfl, rfl, rfl⟩)
    | some b =>
      rw [step_accepts ha] at h
      cases h
      exact .inr (.inr ⟨rfl, b, rfl, rfl⟩)

/-- No steps leave the state. -/
theorem run_zero (s : State) : Sys2Proof.core.run 0 s = .next s := (rfl)

/-- A run of any machine takes one step and goes on. -/
theorem coreRun_succ (M : Host.Core) {k : Nat} {s t : M.State} (h : M.step s = .next t) :
    M.run (k + 1) s = M.run k t := by
  rw [Host.Core.run, h]

/-- A run takes one step and goes on. -/
theorem run_succ {k : Nat} {s t : State} (h : step s = .next t) :
    Sys2Proof.core.run (k + 1) s = Sys2Proof.core.run k t :=
  coreRun_succ Sys2Proof.core h

/-- No commands leave the state. -/
theorem execAll_nil (s : State) : execAll [] s = .next s := (rfl)

/-- Commands are accepted one after the other. -/
theorem execAll_cons (i : Instr) (rest : List Instr) (s : State) :
    execAll (i :: rest) s = execAll rest (commandResult i s) := by
  rw [execAll, exec_eq]

/-- A sequence of commands never stops. -/
theorem execAll_eq (cs : List Instr) (s : State) :
    execAll cs s = .next (cs.foldl (fun t i => commandResult i t) s) := by
  induction cs generalizing s with
  | nil => rfl
  | cons i rest ih => rw [execAll_cons, ih]; rfl

/-- A sequence of commands, cut in two. -/
theorem execAll_append (cs ds : List Instr) (s : State) :
    execAll (cs ++ ds) s = execAll ds (cs.foldl (fun t i => commandResult i t) s) := by
  rw [execAll_eq, execAll_eq, List.foldl_append]

end Sys2Proof.Laws
end

