-- ==== Sys2Proof/Laws/Beats.lean ====
section
/-! SUPPORT. What becomes of a beat: which bytes are reserved, what of the payload counts, and the four outcomes. -/

namespace Sys2Proof.Laws

open Sys2Proof Sys2Proof.Machine Sys2Proof.Safety

/-! ### The payload -/

/-- The seed is the payload modulo 2^32. -/
theorem seedField_congr {d d' : U128} (h : d.toNat % 2 ^ 32 = d'.toNat % 2 ^ 32) : seedField d = seedField d' := by
  apply BitVec.eq_of_toNat_eq
  simpa [seedField] using h

/-- The first lanes are decided by the bits below them. -/
theorem lanes_congr {n : Nat} {d d' : U128} (h : d.toNat % 2 ^ (8 * n) = d'.toNat % 2 ^ (8 * n)) :
    lanes n d = lanes n d' :=
  leNat_injective (by simp) (by rw [leNat_lanes, leNat_lanes, h])

/-! ### The opcode byte -/

/-- The decoder rejects exactly the bytes of the table. -/
theorem reserved_iff (b : Beat) : (∃ w, decode b = .reserved w) ↔ reservedRows b.op.toNat := by
  have h : ∀ op : Byte, ((match decodeOp op with | .reserved _ => true | _ => false) = true ↔ reservedRows op.toNat) := by
    decide
  have ho := h b.op
  unfold decode
  rw [← ho]
  cases decodeOp b.op <;> simp [withOperands]

/-- The decoder reads a command from every other byte. -/
theorem command_iff (b : Beat) : (∃ i, decode b = .command i) ↔ ¬ reservedRows b.op.toNat := by
  rw [← reserved_iff]
  cases decode b <;> simp

/-- The payload has no say in whether a command is in order. -/
theorem inOrder_data {op : Byte} {d d' : U128} {i : Instr} (h : decode ⟨op, d⟩ = .command i) (p q : Phase) :
    ∃ j, decode ⟨op, d'⟩ = .command j ∧ inOrder j p q = inOrder i p q := by
  unfold decode at h ⊢
  simp only at h ⊢
  cases hd : decodeOp op <;> rw [hd] at h <;> simp only [withOperands, Decoded.command.injEq] at h ⊢ <;>
    first
      | (subst h; exact ⟨_, rfl, rfl⟩)
      | cases h

/-- `NOP` is the only command of opcode byte 0, so a command out of order has another. -/
theorem op_ne_zero_of_out {b : Beat} {i : Instr} {p q : Phase} (h : decode b = .command i) (ho : inOrder i p q = false) :
    b.op ≠ 0 := by
  rcases decode_cases h with ⟨_, rfl⟩ | ⟨h0, rfl⟩ | ⟨h0, rfl⟩ | ⟨n, hn, h0, rfl⟩ | ⟨h0, rfl⟩ | ⟨h0, rfl⟩ | ⟨h0, rfl⟩ |
    ⟨n, hn, h0, rfl⟩ | ⟨h0, rfl⟩
  · cases ho
  all_goals rw [h0]
  · decide
  · decide
  · exact (by decide : ∀ n : Fin 4, BitVec.ofNat 8 (0x30 + n) ≠ 0) ⟨n, by omega⟩
  · decide
  · decide
  · decide
  · exact (by decide : ∀ n : Fin 16, BitVec.ofNat 8 (0xB0 + n) ≠ 0) ⟨n, by omega⟩
  · decide

/-! ### The outcomes -/

/-- A command in its phase with `ERR = 0` has its effect. -/
theorem exec_in {i : Instr} {s : State} (he : s.err = false) (ho : inOrder i s.ph32 s.ph128 = true) :
    exec i s = .next (effect i s) := by
  rw [exec_eq]
  simp [commandResult, he, ho]

/-- A command out of its phase with `ERR = 0` faults. -/
theorem exec_out {i : Instr} {s : State} (he : s.err = false) (ho : inOrder i s.ph32 s.ph128 = false) :
    exec i s = .next (raiseFault .sequence (opcodeOf i) s) := by
  rw [exec_eq]
  simp [commandResult, he, ho]

/-- Everything an accepted beat can do: nothing after a fault, `IllegalOp`, `Sequence`, or its command's effect. -/
theorem beat_cases (b : Beat) (s : State) :
    (s.err = true ∧ beatResult b s = s) ∨
    (s.err = false ∧ (∃ w, decode b = .reserved w) ∧ beatResult b s = raiseFault .illegalOp b.op s) ∨
    (s.err = false ∧ (∃ i, decode b = .command i ∧ inOrder i s.ph32 s.ph128 = false) ∧
      beatResult b s = raiseFault .sequence b.op s) ∨
    (s.err = false ∧ ∃ i, decode b = .command i ∧ inOrder i s.ph32 s.ph128 = true ∧ beatResult b s = effect i s) := by
  cases he : s.err
  · cases hd : decode b with
    | reserved w => simp [beatResult, hd, he]
    | command i =>
      have := opcodeOf_decode hd
      cases ho : inOrder i s.ph32 s.ph128 <;> simp [beatResult, hd, he, commandResult, ho, this]
  · exact .inl ⟨rfl, beatResult_err he⟩

/-- A step that is about to accept a beat. -/
theorem step_presenting (s : State) (b : Beat) : step (presenting b s) = .next (beatResult b (release s)) := by
  rw [step_accepts (accepted_presenting b s), ← beatResult_pastBeat, pastBeat_presenting]

/-- A step that is about to accept a command in its phase. -/
theorem step_command {s : State} {b : Beat} {i : Instr} (hd : decode b = .command i)
    (he : s.err = false) (ho : inOrder i s.ph32 s.ph128 = true) :
    step (presenting b s) = .next (effect i (release s)) := by
  rw [step_presenting]
  simp [beatResult, hd, commandResult, he, ho]

/-- A step that is about to accept a command out of its phase. -/
theorem step_out {s : State} {b : Beat} {i : Instr} (hd : decode b = .command i)
    (he : s.err = false) (ho : inOrder i s.ph32 s.ph128 = false) :
    step (presenting b s) = .next { s with err := true, ecode := .sequence, eop := b.op, held := false } := by
  rw [step_presenting]
  have := opcodeOf_decode hd
  simp [beatResult, hd, commandResult, he, ho, raiseFault, release, ← this]

/-- A block or a tail is legal in ABSORB only. -/
theorem absorbs_iff {p : Phase} : absorbs p = true ↔ p = .absorb := by cases p <;> simp [absorbs]

/-- A finish is legal in ABSORB and TAILED only. -/
theorem finishes_iff {p : Phase} : finishes p = true ↔ p = .absorb ∨ p = .tailed := by cases p <;> simp [finishes]

end Sys2Proof.Laws
end

