-- ==== Sys2Proof/Laws/Datapath.lean ====
section
/-! SUPPORT. The constants and the small datapath functions as numbers. The constants are rewritten, never unfolded, so
that the kernel multiplies no open word by a large literal. -/

namespace Sys2Proof.Laws

open Sys2Proof Sys2Proof.Machine

theorem c1w32_toNat : c1w32.toNat = 0xcc9e2d51 := by decide
theorem c2w32_toNat : c2w32.toNat = 0x1b873593 := by decide
theorem m32_toNat : m32.toNat = 5 := by decide
theorem n32_toNat : n32.toNat = 0xe6546b64 := by decide
theorem f1w32_toNat : f1w32.toNat = 0x85ebca6b := by decide
theorem f2w32_toNat : f2w32.toNat = 0xc2b2ae35 := by decide
theorem c1w64_toNat : c1w64.toNat = 0x87c37b91114253d5 := by decide
theorem c2w64_toNat : c2w64.toNat = 0x4cf5ad432745937f := by decide
theorem m64_toNat : m64.toNat = 5 := by decide
theorem n1w64_toNat : n1w64.toNat = 0x52dce729 := by decide
theorem n2w64_toNat : n2w64.toNat = 0x38495ab5 := by decide
theorem f1w64_toNat : f1w64.toNat = 0xff51afd7ed558ccd := by decide
theorem f2w64_toNat : f2w64.toNat = 0xc4ceb9fe1a85ec53 := by decide

/-- A product of 32 bits as a number (R103). -/
theorem mul32_toNat (x y : U32) : (x * y).toNat = x.toNat * y.toNat % 2 ^ 32 := (rfl)

/-- A product of 64 bits as a number (R103). -/
theorem mul64_toNat (x y : U64) : (x * y).toNat = x.toNat * y.toNat % 2 ^ 64 := (rfl)

/-- A sum of 32 bits as a number (R102). -/
theorem add32_toNat (x y : U32) : (x + y).toNat = (x.toNat + y.toNat) % 2 ^ 32 := (rfl)

/-- A sum of 64 bits as a number (R102). -/
theorem add64_toNat (x y : U64) : (x + y).toNat = (x.toNat + y.toNat) % 2 ^ 64 := (rfl)

/-- An xor-shift of 32 bits as a number (40_datapath_primitives.md R107, R108). -/
theorem xsr32_toNat (x : U32) (s : Nat) : (xsr32 x s).toNat = x.toNat ^^^ (x.toNat / 2 ^ s) := by
  rw [xsr32, BitVec.toNat_xor, BitVec.toNat_ushiftRight, Nat.shiftRight_eq_div_pow]

/-- An xor-shift of 64 bits as a number (R107, R108). -/
theorem xsr64_toNat (x : U64) (s : Nat) : (xsr64 x s).toNat = x.toNat ^^^ (x.toNat / 2 ^ s) := by
  rw [xsr64, BitVec.toNat_xor, BitVec.toNat_ushiftRight, Nat.shiftRight_eq_div_pow]

/-- Zero extension keeps the number (R109). -/
theorem zext64_toNat (x : U32) : (zext64 x).toNat = x.toNat := by
  have := x.isLt
  rw [zext64, BitVec.toNat_setWidth, Nat.mod_eq_of_lt (by omega)]

end Sys2Proof.Laws
end

