-- ==== Sys2Proof/Laws/Handshake.lean ====
section
/-! SUPPORT. What an edge of the clocked command port can do, said once. -/

namespace Sys2Proof.Laws

open Sys2Proof Sys2Proof.Machine

/-- A beat that has completed has had its result. -/
@[simp] theorem completed_eq (b : Beat) (s : State) : completed b s = beatResult b s := by
  rw [completed, acceptBeat_eq]

/-- At latency 1 a beat completes at the edge that accepts it. -/
@[simp] theorem startFor_zero (b : Beat) (c : Clocked) :
    startFor 0 b c = { regs := beatResult b c.regs, busy := none, count := c.count + 1 } := by
  rw [startFor, completed_eq]

/-- At a longer latency it is in progress. -/
@[simp] theorem startFor_succ (n : Nat) (b : Beat) (c : Clocked) :
    startFor (n + 1) b c = { regs := c.regs, busy := some { beat := b, left := n }, count := c.count + 1 } := (rfl)

/-- With no command in progress the state of the step is the registers. -/
theorem settled_idle {c : Clocked} (h : c.busy = none) : c.settled = c.regs := by
  simp [Clocked.settled, h]

/-- With a command in progress the state of the step is what it will leave. -/
theorem settled_busy {c : Clocked} {p : InProgress} (h : c.busy = some p) : c.settled = beatResult p.beat c.regs := by
  simp [Clocked.settled, h]

/-- A command in progress does not change `rst`. -/
@[simp] theorem settled_rst (c : Clocked) : c.settled.rst = c.regs.rst := by
  unfold Clocked.settled
  split <;> simp

/-- A command in progress does not change the host's moves. -/
@[simp] theorem settled_port (c : Clocked) : c.settled.port = c.regs.port := by
  unfold Clocked.settled
  split <;> simp

/-- Everything an edge of the clocked port can do: reset; complete the command in progress; wait on for it; accept a beat;
or nothing but end the holding of the block. -/
theorem clockEdge_cases (c : Clocked) :
    (nextRst c.regs = true ∧ clockEdge c = { c with regs := pastEdge (resetRegisters c.regs), busy := none }) ∨
    (nextRst c.regs = false ∧ ∃ p, c.busy = some p ∧ p.left = 0 ∧
      clockEdge c = { c with regs := pastEdge (beatResult p.beat c.regs), busy := none }) ∨
    (nextRst c.regs = false ∧ ∃ p k, c.busy = some p ∧ p.left = k + 1 ∧
      clockEdge c = { c with regs := pastEdge c.regs, busy := some { p with left := k } }) ∨
    (nextRst c.regs = false ∧ c.busy = none ∧ ∃ b, accepted c.regs = some b ∧
      clockEdge c = startFor (Config.lat c.count b.op) b { c with regs := pastBeat c.regs }) ∨
    (nextRst c.regs = false ∧ c.busy = none ∧ accepted c.regs = none ∧
      clockEdge c = { c with regs := pastEdge (release c.regs) }) := by
  cases hr : nextRst c.regs with
  | true => exact .inl ⟨rfl, by simp [clockEdge, hr]⟩
  | false =>
    cases hb : c.busy with
    | some p =>
      cases hl : p.left with
      | zero => exact .inr (.inl ⟨rfl, p, rfl, hl, by simp [clockEdge, hr, hb, advance, hl, beatResult_pastEdge]⟩)
      | succ k => exact .inr (.inr (.inl ⟨rfl, p, k, rfl, hl, by simp [clockEdge, hr, hb, advance, hl]⟩))
    | none =>
      cases ha : accepted c.regs with
      | some b => exact .inr (.inr (.inr (.inl ⟨rfl, rfl, b, rfl, by simp [clockEdge, hr, hb, ha, startBeat]⟩)))
      | none => exact .inr (.inr (.inr (.inr ⟨rfl, rfl, rfl, by simp [clockEdge, hr, hb, ha]⟩)))

end Sys2Proof.Laws
end

