-- ==== Sys2Proof/Laws/PerInstr.lean ====
section
/-! SUPPORT. Statements about every command as syntax, one lemma per constructor. -/

namespace Sys2Proof.Laws.Encoding

open Sys2Proof

/-- The command's row of the opcode map, `(match, mask)` (30_encoding.md R73). -/
def row : Instr → Byte × Byte
  | .nop => (0x00, 0xFF)
  | .init32 _ => (0x10, 0xFF)
  | .blk32 _ => (0x20, 0xFF)
  | .tail32 _ => (0x30, 0xFC)
  | .fin32 => (0x40, 0xFF)
  | .init128 _ => (0x90, 0xFF)
  | .blk128 _ => (0xA0, 0xFF)
  | .tail128 _ => (0xB0, 0xF0)
  | .fin128 => (0xC0, 0xFF)

/-- A well-formed command is encoded with an opcode byte of its own row (R73). -/
def Statement (i : Instr) : Prop := i.wf = true → (encode i).op &&& (row i).2 = (row i).1

theorem nop : Statement .nop := fun _ => by decide

theorem init32 (seed : U32) : Statement (.init32 seed) := fun _ => by simp [encode, opcodeOf, row]

theorem blk32 (bytes : List Byte) : Statement (.blk32 bytes) := fun _ => by simp [encode, opcodeOf, row]

theorem tail32 (bytes : List Byte) : Statement (.tail32 bytes) := fun h =>
  (by decide : ∀ n : Fin 4, BitVec.ofNat 8 (0x30 + n) &&& 0xFC = (0x30 : Byte))
    ⟨bytes.length, by simp only [Instr.wf, decide_eq_true_eq] at h; omega⟩

theorem fin32 : Statement .fin32 := fun _ => by decide

theorem init128 (seed : U32) : Statement (.init128 seed) := fun _ => by simp [encode, opcodeOf, row]

theorem blk128 (bytes : List Byte) : Statement (.blk128 bytes) := fun _ => by simp [encode, opcodeOf, row]

theorem tail128 (bytes : List Byte) : Statement (.tail128 bytes) := fun h =>
  (by decide : ∀ n : Fin 16, BitVec.ofNat 8 (0xB0 + n) &&& 0xF0 = (0xB0 : Byte))
    ⟨bytes.length, by simp only [Instr.wf, decide_eq_true_eq] at h; omega⟩

theorem fin128 : Statement .fin128 := fun _ => by decide

end Sys2Proof.Laws.Encoding
end

