-- ==== Sys2Proof/Tests/Slice0.lean ====
section
/-! SUPPORT. Tests: ill-formed terms refused, words written out from the spec's encoding, the spec's own vectors (spec/95,
cited by their names there), and for every statement with hypotheses a witness that meets them. -/

namespace Sys2Proof.Tests

open Sys2Proof Sys2Proof.Machine Sys2Proof.Safety

/-! ### Helpers -/

/-- The next state of an answer. -/
def after : Answer → Option State
  | .next t => some t
  | .fault _ => none
  | .refused _ => none

/-- E32 with a message open. -/
def open32 (h len : U32) : State := { State.reset with h32 := h, len32 := len, ph32 := .absorb }

/-- E128 with a message open. -/
def open128 (h1 h2 len : U64) : State := { State.reset with h1 := h1, h2 := h2, len128 := len, ph128 := .absorb }

/-- The phases alone, all other registers at reset. -/
def phases (p q : Phase) : State := { State.reset with ph32 := p, ph128 := q }

/-- A faulted block. -/
def faulted : State := { State.reset with err := true, ecode := .illegalOp, eop := 0x34 }

/-- One step with the beat presented. -/
def beat (op : Byte) (data : U128) (s : State) : Option State :=
  after (step (presenting { op := op, data := data } s))

/-- What the E32 vectors of spec/95 section 2.9 list. -/
def view32 (s : State) : U32 × U32 × Phase × BitVec 16 := (s.h32, s.len32, s.ph32, status s)

/-- What the E128 vectors of spec/95 section 2.9 list. -/
def view128 (s : State) : U64 × U64 × U64 × Phase × BitVec 16 := (s.h1, s.h2, s.len128, s.ph128, status s)

/-- What the fault vectors of spec/95 section 2.11 list. -/
def viewFault (s : State) : Bool × Cause × Byte × BitVec 16 := (s.err, s.ecode, s.eop, status s)

/-- Counting bytes, spec/95. -/
def counting (n : Nat) : List Byte := (List.range n).map (BitVec.ofNat 8)

/-! ### Ill-formed terms (30_encoding.md R78) -/

theorem test_wf_blk32_short : Instr.wf (.blk32 [1, 2, 3]) = false := by decide
theorem test_wf_blk32_long : Instr.wf (.blk32 [1, 2, 3, 4, 5]) = false := by decide
theorem test_wf_tail32_long : Instr.wf (.tail32 [1, 2, 3, 4]) = false := by decide
theorem test_wf_blk128_short : Instr.wf (.blk128 (counting 15)) = false := by decide
theorem test_wf_blk128_long : Instr.wf (.blk128 (counting 17)) = false := by decide
theorem test_wf_tail128_long : Instr.wf (.tail128 (counting 16)) = false := by decide
theorem test_wf_accepts : Instr.wf (.tail128 (counting 15)) = true ∧ Instr.wf (.blk32 [1, 2, 3, 4]) = true := by decide

/-! ### Decoding, from words written out bit by bit (R71 to R75) -/

theorem test_decode_nop : decode ⟨0b00000000, 0xffffffffffffffffffffffffffffffff⟩ = .command .nop := by decide
theorem test_decode_init32 : decode ⟨0b00010000, 0x00000000deadbeefcafef00d0000002a⟩ = .command (.init32 0x2a) := by decide
theorem test_decode_blk32 : decode ⟨0b00100000, 0x6c6c6568⟩ = .command (.blk32 [0x68, 0x65, 0x6c, 0x6c]) := by decide
theorem test_decode_tail32 : decode ⟨0b00110010, 0xaabb0201⟩ = .command (.tail32 [0x01, 0x02]) := by decide
theorem test_decode_tail32_empty : decode ⟨0b00110000, 0xaabb0201⟩ = .command (.tail32 []) := by decide
theorem test_decode_fin32 : decode ⟨0b01000000, 0⟩ = .command .fin32 := by decide
theorem test_decode_init128 : decode ⟨0b10010000, 0x0000000000000000ffffffff0000002a⟩ = .command (.init128 0x2a) := by
  decide
theorem test_decode_blk128 :
    decode ⟨0b10100000, 0x0f0e0d0c0b0a09080706050403020100⟩ = .command (.blk128 (counting 16)) := by decide
theorem test_decode_tail128 :
    decode ⟨0b10111111, 0xff0e0d0c0b0a09080706050403020100⟩ = .command (.tail128 (counting 15)) := by decide
theorem test_decode_fin128 : decode ⟨0b11000000, 1⟩ = .command .fin128 := by decide

/-- spec/95 section 2.10: one byte for each way to miss the map. -/
theorem test_decode_reserved :
    ([0x01, 0x0f, 0x80, 0x11, 0x21, 0x34, 0x3f, 0x41, 0x50, 0x60, 0x70, 0x91, 0xa1, 0xc1, 0xd0, 0xe0, 0xf0, 0xff].all
      fun op => isReserved op) = true := by decide

/-- A word as the opcode table numbers it: the opcode byte alone, the payload zero. -/
theorem test_table_word : decodeTableWord 8 0xA0 = some (.blk128 (List.replicate 16 0)) ∧
    decodeTableWord 8 0x33 = some (.tail32 [0, 0, 0]) ∧ decodeTableWord 8 0x34 = none ∧
    decodeTableWord 136 0x6f31 = some (.tail32 [0x6f]) := by decide

/-- The step runs exactly the word placed by `withFetchWord`. -/
theorem test_fetch_word :
    (after (step (State.reset.withFetchWord 8 0x10))).map view32 = some (0, 0, .absorb, 0x0001) := by decide

/-- A beat written as one number (30_encoding.md R70): `20` and the payload of "hell". -/
theorem test_encode_blk32 : encode (.blk32 [0x68, 0x65, 0x6c, 0x6c]) = ⟨0x20, 0x6c6c6568⟩ := by decide
theorem test_encode_tail128 : encode (.tail128 [0x68, 0x65, 0x6c, 0x6c, 0x6f]) = ⟨0xb5, 0x6f6c6c6568⟩ := by decide

/-! ### Bytes and datapath (spec/95 sections 2.1 to 2.8 and 2.13) -/

theorem test_le10 : tail32Word (lanes 3 0xddccbbaa) = 0x00ccbbaa := by decide
theorem test_le15 :
    tail128Words (lanes 15 0xff0e0d0c0b0a09080706050403020100) = (0x0706050403020100, 0x000e0d0c0b0a0908) := by decide
theorem test_rotl32 : rotl32 0x12345678 15 = 0x2b3c091a ∧ rotl32 0x80000001 1 = 0x00000003 := by decide
theorem test_rotl64 : rotl64 0x0123456789abcdef 33 = 0x13579bde02468acf ∧ rotl64 1 63 = 0x8000000000000000 := by decide
theorem test_kmix32 : kmix32 0x6c6c6568 = 0xa0ae7465 ∧ kmix32 0xffffffff = 0xbbeeb010 := by decide
theorem test_hround32 : hround32 0x2a 0xa0ae7465 = 0xef062fcd ∧ hround32 0 0 = 0xe6546b64 := by decide
theorem test_fmix32 : fmix32 0x9caf3fb6 = 0x248bfa47 ∧ fmix32 0x80000000 = 0x6d3c65a0 := by decide
theorem test_kmix1w64 : kmix1w64 1 = 0x34e09d0b6bdefe38 ∧ kmix1w64 0xffffffffffffffff = 0x11cc7f70ecdb6e49 := by decide
theorem test_kmix2w64 : kmix2w64 1 = 0x4e26f5539bb7c37e ∧ kmix2w64 0x18 = 0x185ecb28120a9ea3 := by decide
/-- V2.7a separates the old `h1` from the new one in lane 2's addition. -/
theorem test_blkround128 : blkround128 0 0 0 0 = (0x52dce729, 0x1d699de82) := by decide
theorem test_fmix64 : fmix64 1 = 0xb456bcfc34c2cb2c ∧ fmix64 0x8000000000000000 = 0x8f780810af31a493 := by decide
theorem test_final128 : final128 0x2a 0x2a 0 = (0xf02aa77dfa1b8523, 0xd1016610da11cbb9) := by decide

/-! ### One step per vector (spec/95 section 2.9) -/

theorem test_v1_init32 : (beat 0x10 0xffffffff { phases .done .idle with h32 := 0xdeadbeef, len32 := 8 }).map view32 =
    some (0xffffffff, 0, .absorb, 0x0001) := by decide
theorem test_v3_blk32 : (beat 0x20 0x6c6c6568 (open32 0 0)).map view32 = some (0xef13efcd, 4, .absorb, 0x0001) := by
  decide
theorem test_v4_blk32_wraps : (beat 0x20 0xffffffff (open32 0x12345678 0xfffffffc)).map view32 =
    some (0xb655d58b, 0, .absorb, 0x0001) := by decide
theorem test_v6_tail32 : (beat 0x31 0xffffff6f (open32 0xef13efcd 4)).map view32 =
    some (0x9caf3fb3, 5, .tailed, 0x0002) := by decide
theorem test_v9_tail32_wraps : (beat 0x33 0x00030201 (open32 0x12345678 0xfffffffe)).map view32 =
    some (0x162a0257, 1, .tailed, 0x0002) := by decide
theorem test_v10_fin32 : (beat 0x40 0 (open32 0xdeadbeef 8)).map view32 = some (0x8ac8b727, 8, .done, 0x0003) := by
  decide
theorem test_v12_fin32 : (beat 0x40 0 { phases .tailed .idle with h32 := 0x9caf3fb3, len32 := 5 }).map view32 =
    some (0x248bfa47, 5, .done, 0x0003) := by decide
theorem test_v13_init128 :
    (beat 0x90 0xffffffff { phases .idle .done with h1 := 5, h2 := 6, len128 := 7 }).map view128 =
      some (0xffffffff, 0xffffffff, 0, .absorb, 0x0004) := by decide
theorem test_v15_blk128 : (beat 0xa0 0x0f0e0d0c0b0a09080706050403020100 (open128 0x2a 0x2a 0)).map view128 =
    some (0xdcac506215c459b1, 0x72927bfe12440847, 16, .absorb, 0x0004) := by decide
theorem test_v16_blk128_wraps : (beat 0xa0 0 (open128 1 2 0xfffffffffffffff0)).map view128 =
    some (0x7adce733, 0x79e99deb4, 0, .absorb, 0x0004) := by decide
theorem test_v18_tail128 : (beat 0xb1 0xff01 (open128 0 0 0)).map view128 =
    some (0x34e09d0b6bdefe38, 0, 1, .tailed, 0x0008) := by decide
theorem test_v21_tail128 :
    (beat 0xb9 0x181716151413121110 (open128 0xdcac506215c459b1 0x72927bfe12440847 16)).map view128 =
      some (0xf91b73eb1ce37e93, 0x6accb0d6004e96e4, 25, .tailed, 0x0008) := by decide
theorem test_v24_fin128 : (beat 0xc0 0 (open128 0x1111111111111111 0x2222222222222222 48)).map view128 =
    some (0x5fa18c90c1524984, 0x1130b52f3ada4f8a, 48, .done, 0x000c) := by decide
theorem test_v25_fin128 :
    (beat 0xc0 0 { phases .idle .tailed with h1 := 0x8c3f01c9e77511ed, h2 := 0x2a, len128 := 5 }).map view128 =
      some (0xc4b8b3c960af6f08, 0x2334b875b0efbc7a, 5, .done, 0x000c) := by decide
theorem test_v26_nop :
    beat 0x00 0xdeadbeef { open32 0xef062fcd 4 with h1 := 0x8c3f01c9e77511ed, h2 := 0x2a, len128 := 5, ph128 := .tailed } =
      some { open32 0xef062fcd 4 with h1 := 0x8c3f01c9e77511ed, h2 := 0x2a, len128 := 5, ph128 := .tailed } := by decide

/-! ### Faults and reset (spec/95 sections 2.11 and 2.12) -/

theorem test_f7_illegal_before_phase : (beat 0x21 0 (phases .absorb .idle)).map viewFault =
    some (true, .illegalOp, 0x21, 0x2131) := by decide
theorem test_f10_illegal : (beat 0xd0 0 (phases .done .done)).map viewFault = some (true, .illegalOp, 0xd0, 0xd03f) := by
  decide
theorem test_f18_tail_after_tail : (beat 0x31 0 (phases .tailed .idle)).map viewFault =
    some (true, .sequence, 0x31, 0x3152) := by decide
theorem test_f25_tail_after_done : (beat 0xbf 0 (phases .idle .done)).map viewFault =
    some (true, .sequence, 0xbf, 0xbf5c) := by decide
theorem test_f28_other_phase : (beat 0x40 0 (phases .idle .absorb)).map viewFault =
    some (true, .sequence, 0x40, 0x4054) := by decide
theorem test_discard_after_fault : beat 0x10 0x2a faulted = some faulted := by decide
/-- R240: an edge with `rst` 1 resets the registers and accepts nothing, the presented beat waiting. -/
theorem test_reset_edge : (after (step (withInput [true] [.present ⟨0x10, 0x2a⟩] faulted))).map
    (fun s => (view32 s, s.eop, s.port)) = some ((0, 0, .idle, 0x0000), 0, [.present ⟨0x10, 0x2a⟩]) := by decide

/-- R240: the first edge with `rst` 0 accepts nothing yet; after it the block is in the reset state. -/
theorem test_first_edge_out_of_reset :
    after (step (withInput [] [.present ⟨0x10, 0x2a⟩] (resetRegisters faulted))) =
      some { State.reset with port := [.present ⟨0x10, 0x2a⟩] } := by decide

/-- R240, R244: in the reset state the presented beat is accepted. -/
theorem test_accepts_in_reset_state :
    (after (step (withInput [] [.present ⟨0x10, 0x2a⟩] State.reset))).map (fun s => (view32 s, s.port)) =
      some ((0x2a, 0, .absorb, 0x0001), []) := by decide
theorem test_reset_inv : Inv State.reset := by decide

/-! ### Messages (spec/95 sections 1, 3 and 4) and the assembler -/

theorem test_hash32_s2 : hash32 [] 1 = 0x514e28b7 := by decide
theorem test_hash32_s3 : hash32 [0x68, 0x65, 0x6c, 0x6c, 0x6f] 0 = 0x248bfa47 := by decide
theorem test_hash128_hello :
    hash128 [0x68, 0x65, 0x6c, 0x6c, 0x6f] 42 = (0xc4b8b3c960af6f08, 0x2334b875b0efbc7a) := by decide
theorem test_hash128_25 : hash128 (counting 25) 42 = (0x9d1c31fb79905528, 0x0a6df0429219301a) := by decide
theorem test_assemble : assembleBeats "INIT32 0x2a ; seed\nTAIL32 6f\n\nFIN32".toList =
    .ok [⟨0x10, 0x2a⟩, ⟨0x31, 0x6f⟩, ⟨0x40, 0⟩] := by decide
theorem test_assemble_pseudo : assemble "HASH32 0, 68 65 6c 6c 6f".toList =
    .ok [.init32 0, .blk32 [0x68, 0x65, 0x6c, 0x6c], .tail32 [0x6f], .fin32] := by decide
/-- The model's choice on leading zeros (log 11); a `0x` literal has at most 8 digits (R78). -/
theorem test_assemble_leading_zeros : assemble "INIT32 00000000001".toList = .ok [.init32 1] ∧
    assemble "INIT32 0x000000001".toList = .error .badOperand := by decide
theorem test_assemble_seed_range : assemble "INIT32 4294967296".toList = .error .seedRange := by decide
theorem test_assemble_long_tail : assemble "TAIL32 00 01 02 03".toList = .error .byteCount := by decide

/-! ### Witnesses: for each statement with hypotheses, and each of its clauses, a case that meets them -/

theorem witness_DecodeOfEncodeIsTheCommand :
    Instr.wf (.tail32 []) = true ∧ Instr.wf (.tail32 (counting 3)) = true ∧ Instr.wf (.blk128 (counting 16)) = true ∧
    Instr.wf (.tail128 (counting 15)) = true ∧ Instr.wf (.init128 0xffffffff) = true := by decide

theorem witness_EncodeOfDecodeKeepsTheUsedBits :
    decode ⟨0x33, 0xaa030201⟩ = .command (.tail32 [1, 2, 3]) ∧ decode ⟨0xb0, 0xff⟩ = .command (.tail128 []) := by decide

/-- The hypotheses of the statement for two payloads of one opcode byte. -/
abbrev Agree (op : Byte) (d d' : U128) : Prop :=
  (op = 0x10 ∨ op = 0x20 ∨ op = 0x90 → d.toNat % 2 ^ 32 = d'.toNat % 2 ^ 32) ∧ (op = 0xA0 → d = d') ∧
  (∀ n, n ≤ 3 → op = BitVec.ofNat 8 (0x30 + n) → d.toNat % 2 ^ (8 * n) = d'.toNat % 2 ^ (8 * n)) ∧
  (∀ n, n ≤ 15 → op = BitVec.ofNat 8 (0xB0 + n) → d.toNat % 2 ^ (8 * n) = d'.toNat % 2 ^ (8 * n))

theorem witness_UnusedPayloadBitsAreIgnored :
    Agree 0x20 0xff6c6c6568 0x6c6c6568 ∧ Agree 0xA0 7 7 ∧ Agree 0x33 0xaa030201 0x00030201 ∧ Agree 0x30 1 0 ∧
    Agree 0xBF 0xff000000000000000000000000000001 1 ∧ Agree 0xC0 1 0 := by
  refine ⟨?_, ?_, ?_, ?_, ?_, ?_⟩ <;> decide

theorem witness_OpcodeMapSelectsTheCommands :
    (0x00 : Byte) &&& 0xFF = 0x00 ∧ (0x10 : Byte) &&& 0xFF = 0x10 ∧ (0x20 : Byte) &&& 0xFF = 0x20 ∧
    (0x33 : Byte) &&& 0xFC = 0x30 ∧ (0x40 : Byte) &&& 0xFF = 0x40 ∧ (0x90 : Byte) &&& 0xFF = 0x90 ∧
    (0xA0 : Byte) &&& 0xFF = 0xA0 ∧ (0xBF : Byte) &&& 0xF0 = 0xB0 ∧ (0xC0 : Byte) &&& 0xFF = 0xC0 := by decide

theorem witness_OpcodeMapSelectsTheCommands_reserved : ∃ op : Byte,
    op &&& 0xFF ≠ 0x00 ∧ op &&& 0xFF ≠ 0x10 ∧ op &&& 0xFF ≠ 0x20 ∧ op &&& 0xFC ≠ 0x30 ∧ op &&& 0xFF ≠ 0x40 ∧
    op &&& 0xFF ≠ 0x90 ∧ op &&& 0xFF ≠ 0xA0 ∧ op &&& 0xF0 ≠ 0xB0 ∧ op &&& 0xFF ≠ 0xC0 := ⟨0x34, by decide⟩

theorem witness_ReservedBytesAreExactlyTheTable :
    reservedRows 0x01 ∧ reservedRows 0x34 ∧ reservedRows 0x8F ∧ reservedRows 0xFF ∧ ¬ reservedRows 0x33 ∧
    ¬ reservedRows 0xBF ∧ ¬ reservedRows 0x00 ∧ State.reset.err = false := by
  refine ⟨?_, ?_, ?_, ?_, ?_, ?_, ?_, ?_⟩ <;> decide

theorem witness_StepRunsTheDecodedCommand : ∃ (s : State) (b : Beat) (rest : List Move) (i : Instr),
    s.port = .present b :: rest ∧ nextRst s = false ∧ s.held = false ∧ decode b = .command i ∧ s.rst ≠ [] :=
  ⟨withInput [false, true] [.present ⟨0x33, 0x030201⟩, .quiet ⟨0, 0⟩] (open32 0 0), ⟨0x33, 0x030201⟩,
    [.quiet ⟨0, 0⟩], .tail32 [1, 2, 3], by decide⟩

theorem witness_ReservedBeatRaisesIllegalOp : ∃ (s : State) (b : Beat) (rest : List Move),
    s.port = .present b :: rest ∧ nextRst s = false ∧ s.held = false ∧ reservedRows b.op.toNat ∧ s.err = false :=
  ⟨withInput [] [.present ⟨0x34, 0⟩, .quiet ⟨0, 0⟩] (open32 0 0), ⟨0x34, 0⟩, [.quiet ⟨0, 0⟩], by decide⟩

theorem witness_FaultChecksComeInOrder_set : ∃ (b : Beat) (s : State), s.err = true ∧ isReserved b.op = true :=
  ⟨⟨0x34, 0⟩, faulted, by decide⟩

theorem witness_FaultChecksComeInOrder_illegal : ∃ (b : Beat) (s t : State),
    s.err = false ∧ acceptBeat b s = .next t ∧ t.err = true ∧ reservedRows b.op.toNat :=
  ⟨⟨0x21, 0⟩, State.reset, _, rfl, rfl, by decide, by decide⟩

theorem witness_FaultChecksComeInOrder_sequence : ∃ (b : Beat) (s t : State),
    s.err = false ∧ acceptBeat b s = .next t ∧ t.err = true ∧ ¬ reservedRows b.op.toNat :=
  ⟨⟨0x40, 0⟩, State.reset, _, rfl, rfl, by decide, by decide⟩

theorem witness_FaultChecksComeInOrder_idle : State.reset.err = false ∧ State.reset.ph32 = .idle := by decide

theorem witness_ResetFromEveryState : ∃ s : State, nextRst s = true ∧ s.rst.tail.headD false = false ∧ s.err = true :=
  ⟨withInput [true, false] [.present ⟨0x10, 0x2a⟩] faulted, by decide⟩

theorem witness_ResetFromEveryState_accepts : ∃ (s : State) (b : Beat) (rest : List Move),
    s.held = false ∧ nextRst s = false ∧ s.port = .present b :: rest :=
  ⟨withInput [false] [.present ⟨0x10, 0x2a⟩] State.reset, ⟨0x10, 0x2a⟩, [], by decide⟩

/-- A block with a command in progress, about to be reset. -/
def resetWhileBusy : Clocked :=
  { regs := withInput [true] [.present ⟨0x10, 0x2a⟩] (open32 1 4)
    busy := some { beat := ⟨0x40, 0⟩, left := 1 }
    count := 3 }

theorem witness_ResetFromEveryState_clocked : nextRst resetWhileBusy.regs = true ∧
    resetWhileBusy.regs.rst.tail.headD false = false ∧ resetWhileBusy.busy ≠ none ∧ Clocked.reset.regs.held = false ∧
    Clocked.reset.busy = none ∧ nextRst Clocked.reset.regs = false := by decide

theorem witness_ResetFromEveryState_clears : ∃ s t : State, step s = .next t ∧ s.err = true ∧ t.err = false ∧
    s.ecode ≠ .noFault ∧ t.ecode = .noFault ∧ s.eop ≠ 0 ∧ t.eop = 0 ∧ s.ph32 ≠ .idle ∧ t.ph32 = .idle ∧
    s.ph128 ≠ .idle ∧ t.ph128 = .idle :=
  ⟨withInput [true] [] { faulted with ph32 := .tailed, ph128 := .absorb }, _, rfl, by decide⟩

theorem witness_ResetValues : ∃ (i : Instr) (t : State), exec i State.reset = .next t ∧ t.err = false :=
  ⟨.init128 0xffffffff, _, rfl, rfl⟩

theorem witness_NothingPresentedChangesNothing : (∃ (s : State) (values : Beat) (rest : List Move),
    s.port = .quiet values :: rest ∧ nextRst s = false) ∧ ∃ s : State, s.port = [] ∧ nextRst s = false :=
  ⟨⟨withInput [] [.quiet ⟨0x10, 5⟩] (open32 1 4), ⟨0x10, 5⟩, [], by decide⟩, withInput [false] [] (open32 1 4), by decide⟩

theorem witness_InvariantIsKeptByEveryStep_effect : ∃ s t : State, Inv s ∧ step s = .next t ∧ t.ph128 = .tailed :=
  ⟨presenting ⟨0xbf, 7⟩ (open128 1 2 16), _, by decide, rfl, by decide⟩

theorem witness_InvariantIsKeptByEveryStep_fault : ∃ s t : State, Inv s ∧ step s = .next t ∧ t.err = true :=
  ⟨presenting ⟨0xc1, 7⟩ (open32 1 4), _, by decide, rfl, by decide⟩

theorem witness_InvariantIsKeptByEveryStep_held : ∃ s t : State, Inv s ∧ step s = .next t ∧ s.held = true :=
  ⟨withInput [] [.present ⟨0x10, 7⟩] (resetRegisters State.reset), _, by decide, rfl, by decide⟩

theorem witness_PhasesMoveByTheTable_effect : ∃ (i : Instr) (s t : State),
    s.err = false ∧ exec i s = .next t ∧ t.err = false ∧ t.ph128 = .tailed :=
  ⟨.tail128 [], open128 1 2 16, _, by decide, rfl, by decide⟩

theorem witness_PhasesMoveByTheTable_fault : ∃ (i : Instr) (s t : State),
    s.err = false ∧ exec i s = .next t ∧ t.err = true :=
  ⟨.fin128, phases .absorb .done, _, by decide, rfl, by decide⟩

theorem witness_OutOfOrderCommandsRaiseSequence :
    (phases .tailed .absorb).err = false ∧ (phases .tailed .absorb).ph32 ≠ .absorb ∧ (counting 3).length ≤ 3 ∧
    (phases .done .absorb).ph32 = .done ∧ (phases .absorb .tailed).ph128 ≠ .absorb ∧ (counting 15).length ≤ 15 ∧
    (phases .absorb .idle).ph128 = .idle := by decide

theorem witness_OutOfOrderCommandsRaiseSequence_legal : ∃ s t u v w : State, s.err = false ∧ s.ph32 = .absorb ∧
    s.ph128 = .absorb ∧ exec .nop s = .next t ∧ exec (.blk32 [1, 2, 3, 4]) s = .next u ∧ exec .fin128 s = .next v ∧
    exec .fin32 (phases .tailed .tailed) = .next w :=
  ⟨phases .absorb .absorb, _, _, _, _, by decide, by decide, by decide, rfl, rfl, rfl, rfl⟩

theorem witness_FaultEntryWritesTheRecordOnly : ∃ (b : Beat) (s t : State),
    s.err = false ∧ acceptBeat b s = .next t ∧ t.err = true ∧ dig32Valid s = true :=
  ⟨⟨0xa0, 0⟩, phases .done .tailed, _, by decide, rfl, by decide, by decide⟩

theorem witness_AfterAFaultNothingChanges : ∃ (k : Nat) (s : State), s.err = true ∧ noReset k s = true ∧
    s.held = false ∧ k = 2 ∧ s.rst.length = 3 ∧ s.port.length = 3 :=
  ⟨2, withInput [false, false, true] [.present ⟨0x10, 1⟩, .quiet ⟨0x34, 2⟩, .present ⟨0x34, 2⟩] faulted, by decide⟩

theorem witness_AfterAFaultNothingChanges_discards :
    after (step (withInput [] [.present ⟨0x10, 1⟩, .present ⟨0x34, 2⟩] faulted)) =
      some (withInput [] [.present ⟨0x34, 2⟩] faulted) := by
  decide

theorem witness_Init32StartsAMessage : (phases .done .absorb).err = false := by decide

theorem witness_Blk32AbsorbsABlock : (open32 1 0xfffffffc).err = false ∧ (open32 1 0xfffffffc).ph32 = .absorb ∧
    (phases .tailed .absorb).err = false ∧ (phases .tailed .absorb).ph32 ≠ .absorb := by decide

theorem witness_Tail32AbsorbsTheTail : (open32 1 4).err = false ∧ (open32 1 4).ph32 = .absorb ∧ (3 : Nat) ≤ 3 ∧
    (phases .idle .absorb).err = false ∧ (phases .idle .absorb).ph32 ≠ .absorb := by decide

theorem witness_Fin32Finalizes : (open32 1 4).err = false ∧ (open32 1 4).ph32 = .absorb ∧
    (phases .tailed .idle).ph32 = .tailed ∧ (phases .tailed .idle).err = false ∧ (phases .done .idle).ph32 = .done ∧
    State.reset.ph32 = .idle := by decide

theorem witness_Init128StartsAMessage : (phases .absorb .tailed).err = false := by decide

theorem witness_Blk128AbsorbsABlock : (open128 1 2 16).err = false ∧ (open128 1 2 16).ph128 = .absorb ∧
    (counting 16).length = 16 ∧ (phases .absorb .done).err = false ∧ (phases .absorb .done).ph128 ≠ .absorb := by decide

theorem witness_Tail128AbsorbsTheTail : (open128 1 2 16).err = false ∧ (open128 1 2 16).ph128 = .absorb ∧
    (counting 15).length ≤ 15 ∧ (counting 8).length ≤ 8 ∧ (phases .absorb .tailed).err = false ∧
    (phases .absorb .tailed).ph128 ≠ .absorb := by decide

theorem witness_Tail128AbsorbsTheTail_half : ∃ t, (counting 8).length ≤ 8 ∧
    exec (.tail128 (counting 8)) (open128 1 2 16) = .next t := ⟨_, by decide, rfl⟩

theorem witness_Fin128Finalizes : (open128 1 2 16).err = false ∧ (open128 1 2 16).ph128 = .absorb ∧
    (phases .idle .tailed).ph128 = .tailed ∧ (phases .idle .tailed).err = false ∧ (phases .idle .done).ph128 = .done ∧
    State.reset.ph128 = .idle := by decide

theorem witness_CommandsLeaveTheRestUnchanged_nop : ∃ s t : State,
    exec .nop s = .next t ∧ s.err = true ∧ isE32 .nop = false ∧ isE128 .nop = false := ⟨faulted, _, rfl, by decide⟩

theorem witness_CommandsLeaveTheRestUnchanged_effect : ∃ s t u v : State,
    exec (.blk32 [1, 2, 3, 4]) s = .next t ∧ exec .fin128 s = .next u ∧ exec (.tail128 [1]) s = .next v ∧
    t.err = false ∧ isE128 (.blk32 [1, 2, 3, 4]) = false ∧ isE32 .fin128 = false :=
  ⟨phases .absorb .absorb, _, _, _, rfl, rfl, rfl, by decide⟩

theorem witness_CommandsLeaveTheRestUnchanged_fault : ∃ s t : State,
    exec .fin32 s = .next t ∧ s.err = false ∧ t.err = true := ⟨State.reset, _, rfl, by decide, by decide⟩

theorem witness_EnginesReadOnlyTheirOwnRegisters : ∃ s s' t t' : State,
    exec .fin32 s = .next t ∧ exec .fin32 s' = .next t' ∧ s.err = s'.err ∧ s.ecode = s'.ecode ∧ s.eop = s'.eop ∧
    isE128 .fin32 = false ∧ s.h32 = s'.h32 ∧ s.len32 = s'.len32 ∧ s.ph32 = s'.ph32 ∧ s ≠ s' :=
  ⟨open32 1 4, { open32 1 4 with h1 := 9 }, _, _, rfl, rfl, by decide⟩

theorem witness_EnginesReadOnlyTheirOwnRegisters_e128 : ∃ s s' t t' : State,
    exec .fin128 s = .next t ∧ exec .fin128 s' = .next t' ∧ s.err = s'.err ∧ s.ecode = s'.ecode ∧ s.eop = s'.eop ∧
    isE32 .fin128 = false ∧ s.h1 = s'.h1 ∧ s.h2 = s'.h2 ∧ s.len128 = s'.len128 ∧ s.ph128 = s'.ph128 ∧ s ≠ s' :=
  ⟨open128 1 2 16, { open128 1 2 16 with h32 := 9 }, _, _, rfl, rfl, by decide⟩

theorem witness_InterleavingDoesNotMatter : ∃ t, execAll [.init32 1, .init128 2, .tail32 [3], .nop, .fin128, .fin32]
    State.reset = .next t ∧ t.err = false := ⟨_, rfl, by decide⟩

theorem witness_TailLanesAreZeroPadded : (3 : Nat) ≤ 3 ∧ (31 : Nat) < 32 ∧ (15 : Nat) ≤ 15 ∧ (63 : Nat) < 64 := by decide

theorem witness_TailBytesLandAtTheirShifts :
    (counting 15).length ≤ 15 ∧ (7 : Nat) < 8 ∧ ¬ (8 : Nat) < 8 ∧ (15 : Nat) < 16 ∧ (7 : Nat) < 16 := by decide

theorem witness_RotationsMoveEveryBit : (0 : Nat) < 31 ∧ (31 : Nat) < 32 ∧ (0 : Nat) < 63 ∧ (63 : Nat) < 64 := by decide

theorem witness_ValidDigestsStay : ∃ s t : State, step s = .next t ∧ nextRst s = false ∧ t.err = false ∧
    dig32Valid s = true ∧ accepted s = some ⟨0x90, 5⟩ ∧ ∀ d, accepted s ≠ some ⟨0x10, d⟩ :=
  ⟨presenting ⟨0x90, 5⟩ (phases .done .done), _, rfl, by decide, by decide, by decide, rfl, by simp⟩

theorem witness_ValidDigestsStay_e128 : ∃ s t : State, step s = .next t ∧ nextRst s = false ∧ t.err = false ∧
    dig128Valid s = true ∧ accepted s = some ⟨0x10, 5⟩ ∧ ∀ d, accepted s ≠ some ⟨0x90, d⟩ :=
  ⟨presenting ⟨0x10, 5⟩ (phases .done .done), _, rfl, by decide, by decide, by decide, rfl, by simp⟩

/-- The expansions of `HASH32` and `HASH128` interleaved, with a `NOP`. -/
def interleaved : List Instr :=
  [.init128 42, .init32 0, .nop, .blk32 [0x68, 0x65, 0x6c, 0x6c], .tail128 [0x68, 0x65, 0x6c, 0x6c, 0x6f], .tail32 [0x6f],
    .fin32, .fin128]

theorem witness_Hash32IsComputed : State.reset.err = false ∧
    interleaved.filter isE32 = expandHash32 0 [0x68, 0x65, 0x6c, 0x6c, 0x6f] ∧
    ∃ u, execAll (interleaved.filter fun i => !isE32 i) State.reset = .next u ∧ u.err = false :=
  ⟨by decide, by decide, _, rfl, by decide⟩

theorem witness_Hash32IsComputed_blocks : State.reset.err = false ∧
    (∀ b ∈ ([[1, 2, 3, 4], [5, 6, 7, 8]] : List (List Byte)), b.length = 4) ∧ (counting 3).length ≤ 3 := by decide

theorem witness_Hash128IsComputed : State.reset.err = false ∧
    interleaved.filter isE128 = expandHash128 42 [0x68, 0x65, 0x6c, 0x6c, 0x6f] ∧
    ∃ u, execAll (interleaved.filter fun i => !isE128 i) State.reset = .next u ∧ u.err = false :=
  ⟨by decide, by decide, _, rfl, by decide⟩

theorem witness_TailIsNotAPaddedBlock : (open32 1 4).err = false ∧ (open32 1 4).ph32 = .absorb ∧
    1 ≤ (counting 3).length ∧ (counting 3).length ≤ 3 ∧ 1 ≤ (counting 1).length := by decide

theorem witness_TailIsNotAPaddedBlock_example : ∃ s t u : State, s.err = false ∧ s.ph32 = .absorb ∧ s.h32 = 0 ∧
    s.len32 = 0 ∧ exec (.tail32 [0x6f]) s = .next t ∧ exec (.blk32 [0x6f, 0x00, 0x00, 0x00]) s = .next u :=
  ⟨open32 0 0, _, _, by decide, by decide, by decide, by decide, rfl, rfl⟩

/-- A block with a command in progress and a beat waiting. -/
def waiting : Clocked :=
  { regs := withInput [false, false] [.present ⟨0x90, 1⟩] (open32 1 4)
    busy := some { beat := ⟨0x40, 0⟩, left := 1 }
    count := 3 }

/-- The block in the reset state with beats presented. -/
def offered : Clocked :=
  { Clocked.reset with
    regs := withInput [false, false, false, true] [.present ⟨0x10, 1⟩, .present ⟨0x90, 1⟩] State.reset }

theorem witness_ClockedPortRunsTheStep : waiting.busy ≠ none ∧ nextRst waiting.regs = false ∧ offered.busy = none ∧
    nextRst resetWhileBusy.regs = true := by decide

theorem witness_CommandHoldsThePortForItsLatency : offered.busy = none ∧ accepted offered.regs = some ⟨0x10, 1⟩ ∧
    noReset 2 (pastBeat offered.regs) = true ∧ (2 : Nat) < 3 ∧
    nextRst (clockEdges 0 (startFor 0 ⟨0x10, 1⟩ { offered with regs := pastBeat offered.regs })).regs = false := by decide

theorem witness_AWaitingBeatIsHeld_waits : ∃ (s t : State) (b : Beat) (rest : List Move),
    s.port = .present b :: rest ∧ step s = .next t ∧ accepted s = none :=
  ⟨withInput [true] [.present ⟨0x10, 1⟩] State.reset, _, ⟨0x10, 1⟩, [], rfl, rfl, by decide⟩

theorem witness_AWaitingBeatIsHeld_accepted : ∃ (s t : State) (b : Beat) (rest : List Move),
    s.port = .present b :: rest ∧ step s = .next t ∧ accepted s ≠ none :=
  ⟨offered.regs, _, ⟨0x10, 1⟩, [.present ⟨0x90, 1⟩], rfl, rfl, by decide⟩

theorem witness_AWaitingBeatIsHeld_clocked : waiting.regs.port = [.present ⟨0x90, 1⟩] ∧
    (∀ j, j < 2 → (clockEdges j waiting).ready = false) ∧ (clockEdges 2 waiting).ready = true ∧
    offered.regs.port = [.present ⟨0x10, 1⟩, .present ⟨0x90, 1⟩] ∧ offered.ready = true := by decide

/-- A block between a reset edge and the first edge out of reset. -/
def justReset : Clocked :=
  { Clocked.reset with regs := withInput [] [.present ⟨0x10, 1⟩] (resetRegisters faulted) }

theorem witness_HeldUntilTheFirstEdgeOutOfReset : justReset.regs.held = true ∧ nextRst justReset.regs = false ∧
    justReset.busy = none ∧ (clockEdge resetWhileBusy).regs.held = true ∧
    (resetWhileBusy.regs.held = true → resetWhileBusy.busy = none) := by decide

theorem witness_HeldUntilTheFirstEdgeOutOfReset_step : ∃ s t : State, step s = .next t ∧ t.held = true :=
  ⟨withInput [true] [] State.reset, _, rfl, by decide⟩

theorem witness_AssembledCommandsAreWellFormed : ∃ is, assemble "TAIL128 00 01\nBLK32 00 01 02 03".toList = .ok is ∧
    is.length = 2 := ⟨[.tail128 [0, 1], .blk32 [0, 1, 2, 3]], by decide⟩

end Sys2Proof.Tests
end

section
/-! PROOFS. The phase table, the reset values and the status word (10_state.md R31, R33, R38). -/

namespace Sys2Proof.Proofs

open Sys2Proof Sys2Proof.Machine Sys2Proof.Laws

/-! ### The phase table (R33) -/

/-- A block or a tail is forbidden in every phase but ABSORB. -/
theorem absorbs_eq_false_iff {p : Phase} : absorbs p = false ↔ p ≠ .absorb := by
  rw [← Bool.not_eq_true, absorbs_iff]

/-- A finish is forbidden in IDLE and DONE. -/
theorem finishes_eq_false_iff {p : Phase} : finishes p = false ↔ p = .idle ∨ p = .done := by
  cases p <;> decide

/-- The fault entries of the table are the commands that are out of order. -/
theorem inOrder_eq_false_iff (i : Instr) (p q : Phase) :
    inOrder i p q = false ↔
      ((∃ bytes, i = .blk32 bytes ∨ i = .tail32 bytes) ∧ p ≠ .absorb) ∨
      (i = .fin32 ∧ (p = .idle ∨ p = .done)) ∨
      ((∃ bytes, i = .blk128 bytes ∨ i = .tail128 bytes) ∧ q ≠ .absorb) ∨
      (i = .fin128 ∧ (q = .idle ∨ q = .done)) := by
  cases i <;> simp [inOrder, absorbs_eq_false_iff, finishes_eq_false_iff]

/-- With `ERR = 0` a command either faults, out of order, or has its effect, in order. -/
theorem exec_cases_of_clear {i : Instr} {s t : State} (he : s.err = false) (h : exec i s = .next t) :
    (inOrder i s.ph32 s.ph128 = false ∧ t = raiseFault .sequence (opcodeOf i) s) ∨
    (inOrder i s.ph32 s.ph128 = true ∧ t = effect i s) := by
  simpa [he] using exec_cases h

/-- Settles O16: out of order the fault entry leaves both phases, and in order the effect moves them by the table. -/
theorem phasesMoveByTheTable : Obligations.PhasesMoveByTheTable := by
  intro i s t he h
  rw [← inOrder_eq_false_iff]
  obtain ⟨ho, rfl⟩ | ⟨ho, rfl⟩ := exec_cases_of_clear he h
  · exact ⟨iff_of_true (raiseFault_err ..) ho, fun _ => ⟨raiseFault_ph32 .., raiseFault_ph128 ..⟩, nofun⟩
  · have hc : (effect i s).err ≠ true := by simp [he]
    refine ⟨iff_of_false hc (by simp [ho]), fun hf => absurd hf hc, fun _ => ?_⟩
    rw [effect_ph32_eq, effect_ph128_eq]
    cases i <;> exact ⟨rfl, rfl⟩

/-! ### The reset values (R38) -/

/-- With both engines in IDLE, only `NOP` and the two `INIT` are in order. -/
theorem inOrder_idle {i : Instr} (h : inOrder i .idle .idle = true) :
    i = .nop ∨ (∃ seed, i = .init32 seed) ∨ ∃ seed, i = .init128 seed := by
  revert h
  cases i <;> simp [inOrder, absorbs, finishes]

/-- The status word of the reset state. -/
theorem status_reset : status State.reset = 0x0000 := by decide

/-- Settles O13: the registers and ports are evaluated, and a command that runs from reset without a fault is in order in
IDLE. -/
theorem resetValues : Obligations.ResetValues := by
  refine ⟨rfl, rfl, rfl, rfl, rfl, rfl, rfl, rfl, rfl, rfl, status_reset, rfl, by decide, rfl, rfl, ?_⟩
  intro i t h ht
  obtain ⟨-, rfl⟩ | ⟨ho, -⟩ := exec_cases_of_clear rfl h
  · cases ht
  · exact inOrder_idle ho

/-! ### The status word (R31) -/

theorem status_ph32 (s : State) : (status s).extractLsb' 0 2 = phaseCode s.ph32 :=
  BitVec.extractLsb'_append_eq_right

theorem status_ph128 (s : State) : (status s).extractLsb' 2 2 = phaseCode s.ph128 := by
  unfold status
  rw [BitVec.extractLsb'_append_eq_of_le (by decide)]
  exact BitVec.extractLsb'_append_eq_right

theorem status_err (s : State) : (status s).getLsbD 4 = s.err := by
  simp only [status, BitVec.getLsbD_append]
  simp

theorem status_ecode (s : State) : (status s).extractLsb' 5 2 = causeCode s.ecode := by
  unfold status
  iterate 3 rw [BitVec.extractLsb'_append_eq_of_le (by decide)]
  exact BitVec.extractLsb'_append_eq_right

theorem status_bit7 (s : State) : (status s).getLsbD 7 = false := by
  simp only [status, BitVec.getLsbD_append]
  simp

theorem status_eop (s : State) : (status s).extractLsb' 8 8 = s.eop := by
  unfold status
  iterate 4 rw [BitVec.extractLsb'_append_eq_of_le (by decide)]
  exact BitVec.extractLsb'_append_eq_left

/-- Settles O40: one lemma a field, and the codes by evaluation. -/
theorem statusShowsTheRegisters : Obligations.StatusShowsTheRegisters :=
  ⟨fun s => ⟨status_ph32 s, status_ph128 s, status_err s, status_ecode s, status_bit7 s, status_eop s⟩,
    rfl, rfl, rfl, rfl, rfl, rfl, rfl, status_reset⟩

end Sys2Proof.Proofs
end

section
/-! PROOFS. Little-endian words and zero-padded tails (20_memory.md R52, R57). -/

namespace Sys2Proof.Proofs

open Sys2Proof Sys2Proof.Machine Sys2Proof.Laws

/-! ### Little-endian assembly (R52) -/

/-- At most `n` bytes are a number below `2^(8n)`. -/
theorem leNat_lt_of_length_le {bs : List Byte} {n : Nat} (h : bs.length ≤ n) : leNat bs < 2 ^ (8 * n) :=
  Nat.lt_of_lt_of_le (leNat_lt bs) (Nat.pow_le_pow_right (by decide) (by omega))

/-- The word of at most four bytes is their number. -/
theorem le32_toNat {bs : List Byte} (h : bs.length ≤ 4) : (le32 bs).toNat = leNat bs := by
  rw [le32, BitVec.toNat_ofNat, Nat.mod_eq_of_lt (leNat_lt_of_length_le h)]

/-- The word of at most eight bytes is their number. -/
theorem le64_toNat {bs : List Byte} (h : bs.length ≤ 8) : (le64 bs).toNat = leNat bs := by
  rw [le64, BitVec.toNat_ofNat, Nat.mod_eq_of_lt (leNat_lt_of_length_le h)]

/-- The words of a `BLK128` beat are the halves of its payload (42_x64_128_engine.md R172). -/
theorem blk128Words_lanes (d : U128) : blk128Words (lanes 16 d) = (d.extractLsb' 0 64, d.extractLsb' 64 64) := by
  have hd : leNat (lanes 16 d) = d.toNat := by rw [leNat_lanes, Nat.mod_eq_of_lt d.isLt]
  apply Prod.ext <;> apply BitVec.eq_of_toNat_eq
  · simp [blk128Words_fst, hd]
  · simp [blk128Words_snd, hd, Nat.shiftRight_eq_div_pow]

/-- Settles O32: a word is its bytes' number, and the number of a payload's lanes is the payload's. -/
theorem littleEndianAssembly : Obligations.LittleEndianAssembly := by
  refine ⟨fun b0 b1 b2 b3 => ?_, fun b0 b1 b2 b3 b4 b5 b6 b7 => ?_,
    fun d => ⟨blk32Word_lanes d, blk128Words_lanes d⟩⟩
  · rw [le32_toNat (by simp)]
    simp only [leNat_cons, leNat_nil]
    ring
  · rw [le64_toNat (by simp)]
    simp only [leNat_cons, leNat_nil]
    ring

/-! ### Zero padding of a tail (R57) -/

/-- The number of the first `n` lanes has the payload's bits below `8n` and zeros from there up. -/
theorem testBit_leNat_lanes (n j : Nat) (d : U128) :
    (leNat (lanes n d)).testBit j = (decide (j < 8 * n) && d.getLsbD j) := by
  rw [leNat_lanes, Nat.testBit_mod_two_pow, BitVec.testBit_toNat]

/-- The word of a tail is its bytes' number: the zero lanes count nothing. -/
theorem tail32Word_eq (bs : List Byte) : tail32Word bs = BitVec.ofNat 32 (leNat bs) := by
  rw [tail32Word, le32, leNat_padLanes]

theorem tail32Word_getLsbD {j : Nat} (bs : List Byte) (hj : j < 32) :
    (tail32Word bs).getLsbD j = (leNat bs).testBit j := by
  rw [tail32Word_eq, BitVec.getLsbD_ofNat, decide_eq_true hj, Bool.true_and]

theorem tail128Words_fst_getLsbD {bs : List Byte} {j : Nat} (h : bs.length ≤ 16) (hj : j < 64) :
    (tail128Words bs).1.getLsbD j = (leNat bs).testBit j := by
  rw [tail128Words_eq h, BitVec.getLsbD_ofNat, decide_eq_true hj, Bool.true_and]

theorem tail128Words_snd_getLsbD {bs : List Byte} {j : Nat} (h : bs.length ≤ 16) (hj : j < 64) :
    (tail128Words bs).2.getLsbD j = (leNat bs).testBit (64 + j) := by
  rw [tail128Words_eq h, BitVec.getLsbD_ofNat, decide_eq_true hj, Bool.true_and, Nat.testBit_div_two_pow, Nat.add_comm]

/-- The top byte of the word of a `TAIL32` is zero. -/
theorem tail32Word_lt {bs : List Byte} (h : bs.length ≤ 3) : (tail32Word bs).toNat < 2 ^ 24 := by
  have hb := leNat_lt_of_length_le h
  rw [tail32Word_eq, BitVec.toNat_ofNat]
  omega

/-- The top byte of the second word of a `TAIL128` is zero. -/
theorem tail128Words_snd_lt {bs : List Byte} (h : bs.length ≤ 15) : (tail128Words bs).2.toNat < 2 ^ 56 := by
  have hb := leNat_lt_of_length_le h
  rw [tail128Words_eq (by omega), BitVec.toNat_ofNat]
  omega

/-- Settles O33: a bit of a tail word is a bit of the lanes' number, and the bounds come from the length. -/
theorem tailLanesAreZeroPadded : Obligations.TailLanesAreZeroPadded := by
  have hl : ∀ {n k : Nat} (d : U128), n ≤ k → (lanes n d).length ≤ k := fun d hn => (lanes_length _ d).trans_le hn
  refine ⟨fun n j d _ hj => ?_, fun n j d hn hj => ⟨?_, ?_⟩, fun n d hn => tail32Word_lt (hl d hn),
    fun n d hn => tail128Words_snd_lt (hl d hn)⟩
  · rw [tail32Word_getLsbD _ hj, testBit_leNat_lanes]
  · rw [tail128Words_fst_getLsbD (hl d (by omega)) hj, testBit_leNat_lanes]
  · rw [tail128Words_snd_getLsbD (hl d (by omega)) hj, testBit_leNat_lanes]

end Sys2Proof.Proofs
end

section
/-! PROOFS. The opcode map and the table of reserved bytes (30_encoding.md R73, R75). -/

namespace Sys2Proof.Proofs

open Sys2Proof Sys2Proof.Machine Sys2Proof.Safety Sys2Proof.Laws

/-! ### The opcode map (R73) -/

/-- A row whose mask is `0xFF` selects its match alone. -/
theorem decode_wholeByte_row {op m : Byte} (h : op &&& 0xFF = m) (d : U128) : decode ⟨op, d⟩ = decode ⟨m, d⟩ := by
  rw [← h, show op &&& 0xFF = op from BitVec.and_allOnes]

/-- The row of `TAIL32` selects the bytes `0x30 + N` with `N` at most 3. -/
theorem tail32_row {op : Byte} (h : op &&& 0xFC = 0x30) :
    (countField op).toNat ≤ 3 ∧ op = BitVec.ofNat 8 (0x30 + (countField op).toNat) := by
  revert op
  decide

/-- The row of `TAIL128` selects the bytes `0xB0 + N`. -/
theorem tail128_row {op : Byte} (h : op &&& 0xF0 = 0xB0) : op = BitVec.ofNat 8 (0xB0 + (countField op).toNat) := by
  revert op
  decide

theorem decode_tail32_row {op : Byte} (h : op &&& 0xFC = 0x30) (d : U128) :
    decode ⟨op, d⟩ = .command (.tail32 (lanes (countField op).toNat d)) := by
  obtain ⟨hn, ho⟩ := tail32_row h
  calc decode ⟨op, d⟩
    _ = decode ⟨BitVec.ofNat 8 (0x30 + (countField op).toNat), d⟩ := by rw [← ho]
    _ = _ := decode_tail32 hn d

theorem decode_tail128_row {op : Byte} (h : op &&& 0xF0 = 0xB0) (d : U128) :
    decode ⟨op, d⟩ = .command (.tail128 (lanes (countField op).toNat d)) := by
  calc decode ⟨op, d⟩
    _ = decode ⟨BitVec.ofNat 8 (0xB0 + (countField op).toNat), d⟩ := by rw [← tail128_row h]
    _ = _ := decode_tail128 (Nat.le_of_lt_succ (countField op).isLt) d

/-- Every well-formed command is encoded with an opcode byte of its own row. -/
theorem encode_row : ∀ i : Instr, Encoding.Statement i
  | .nop => Encoding.nop
  | .init32 seed => Encoding.init32 seed
  | .blk32 bytes => Encoding.blk32 bytes
  | .tail32 bytes => Encoding.tail32 bytes
  | .fin32 => Encoding.fin32
  | .init128 seed => Encoding.init128 seed
  | .blk128 bytes => Encoding.blk128 bytes
  | .tail128 bytes => Encoding.tail128 bytes
  | .fin128 => Encoding.fin128

/-- The row of a decoded command selects the byte it was decoded from. -/
theorem decode_row {b : Beat} {i : Instr} (h : decode b = .command i) :
    b.op &&& (Encoding.row i).2 = (Encoding.row i).1 := by
  rw [← opcodeOf_decode h]
  exact encode_row i (decode_wf h)

/-- Settles O4: each row's bytes decode to its command; a byte that decodes to a command is selected by that command's
row; the count is evaluated. -/
theorem opcodeMapSelectsTheCommands : Obligations.OpcodeMapSelectsTheCommands := by
  rintro ⟨op, d⟩
  refine ⟨fun h => (decode_wholeByte_row h d).trans (decode_nop d),
    fun h => (decode_wholeByte_row h d).trans (decode_init32 d),
    fun h => (decode_wholeByte_row h d).trans (decode_blk32 d),
    fun h => decode_tail32_row h d,
    fun h => (decode_wholeByte_row h d).trans (decode_fin32 d),
    fun h => (decode_wholeByte_row h d).trans (decode_init128 d),
    fun h => (decode_wholeByte_row h d).trans (decode_blk128 d),
    fun h => decode_tail128_row h d,
    fun h => (decode_wholeByte_row h d).trans (decode_fin128 d), ?_, by decide +kernel⟩
  intro nop init32 blk32 tail32 fin32 init128 blk128 tail128 fin128
  cases hd : decode ⟨op, d⟩ with
  | reserved why => exact ⟨why, rfl⟩
  | command i =>
    have hrow := decode_row hd
    cases i with
    | nop => exact absurd hrow nop
    | init32 => exact absurd hrow init32
    | blk32 => exact absurd hrow blk32
    | tail32 => exact absurd hrow tail32
    | fin32 => exact absurd hrow fin32
    | init128 => exact absurd hrow init128
    | blk128 => exact absurd hrow blk128
    | tail128 => exact absurd hrow tail128
    | fin128 => exact absurd hrow fin128

/-! ### The table of reserved bytes (R75) -/

/-- A reserved byte accepted with `ERR = 0` raises `IllegalOp`. -/
theorem acceptBeat_reserved {b : Beat} {s : State} (hb : reservedRows b.op.toNat) (he : s.err = false) :
    acceptBeat b s = .next (raiseFault .illegalOp b.op s) := by
  obtain ⟨why, hd⟩ := (reserved_iff b).mpr hb
  simp [acceptBeat_eq, beatResult, hd, he]

/-- Settles O5: the decoder's answer is known from the table by `reserved_iff` and `command_iff`, and the table is counted
by evaluation. -/
theorem reservedBytesAreExactlyTheTable : Obligations.ReservedBytesAreExactlyTheTable :=
  ⟨fun b => (reserved_iff b).mpr, fun b => (command_iff b).mpr, fun _ _ => acceptBeat_reserved, by decide +kernel⟩

end Sys2Proof.Proofs
end

section
/-! PROOFS. The rotations, the chains of E32 and the chains of E128 as numbers (40_datapath_primitives.md R105, R106, R112
to R119). -/

namespace Sys2Proof.Proofs

open Sys2Proof Sys2Proof.Machine Sys2Proof.Laws

/-! ### Rotations (R105, R106) -/

/-- The rotation of E32 is the library's, where its amount is in range. -/
theorem rotl32_eq_rotateLeft (x : U32) {r : Nat} (h : r < 32) : rotl32 x r = x.rotateLeft r := by
  rw [rotl32, BitVec.rotateLeft_def, Nat.mod_eq_of_lt h]

/-- The rotation of E128 is the library's, where its amount is in range. -/
theorem rotl64_eq_rotateLeft (x : U64) {r : Nat} (h : r < 64) : rotl64 x r = x.rotateLeft r := by
  rw [rotl64, BitVec.rotateLeft_def, Nat.mod_eq_of_lt h]

/-- Bit `i` moves up by `r`, or around the end when `i + r` leaves the word. -/
theorem rotateLeft_getLsbD_add_mod {w r i : Nat} (x : BitVec w) (hr : r < w) (hi : i < w) :
    (x.rotateLeft r).getLsbD ((i + r) % w) = x.getLsbD i := by
  rw [BitVec.getLsbD_rotateLeft_of_le hr]
  by_cases hw : i + r < w
  · have hup : ¬ i + r < r := by omega
    simp [Nat.mod_eq_of_lt hw, hw, hup]
  · have hm : (i + r) % w = i + r - w := by rw [Nat.mod_eq_sub_mod (by omega), Nat.mod_eq_of_lt (by omega)]
    have hlow : i + r - w < r := by omega
    have hback : w - r + (i + r - w) = i := by omega
    simp [hm, hlow, hback]

/-- The two shifted parts of a rotation share no bit, so that their disjunction is a sum. -/
theorem rotateLeft_toNat_eq_add {w r q : Nat} (x : BitVec w) (hr : r < w) (hq : r + q = w) :
    (x.rotateLeft r).toNat = x.toNat * 2 ^ r % 2 ^ w + x.toNat / 2 ^ q := by
  have hsub : w - r = q := by omega
  have hpow : 2 ^ w = 2 ^ q * 2 ^ r := by rw [← Nat.pow_add, Nat.add_comm, hq]
  have hlow : x.toNat / 2 ^ q < 2 ^ r := Nat.div_lt_of_lt_mul (hpow ▸ x.isLt)
  have hhigh : x.toNat * 2 ^ r % 2 ^ w = (x.toNat % 2 ^ q) <<< r := by rw [hpow, Nat.mul_mod_mul_right, Nat.shiftLeft_eq]
  rw [BitVec.toNat_rotateLeft, Nat.mod_eq_of_lt hr, hsub, Nat.shiftLeft_eq, Nat.shiftRight_eq_div_pow, hhigh,
    Nat.shiftLeft_add_eq_or_of_lt hlow]

/-- A rotation of 32 bits as a number; `q` is what is left of the width. -/
theorem rotl32_toNat (x : U32) {r q : Nat} (hr : r < 32) (hq : r + q = 32) :
    (rotl32 x r).toNat = x.toNat * 2 ^ r % 2 ^ 32 + x.toNat / 2 ^ q := by
  rw [rotl32_eq_rotateLeft x hr, rotateLeft_toNat_eq_add x hr hq]

/-- A rotation of 64 bits as a number; `q` is what is left of the width. -/
theorem rotl64_toNat (x : U64) {r q : Nat} (hr : r < 64) (hq : r + q = 64) :
    (rotl64 x r).toNat = x.toNat * 2 ^ r % 2 ^ 64 + x.toNat / 2 ^ q := by
  rw [rotl64_eq_rotateLeft x hr, rotateLeft_toNat_eq_add x hr hq]

/-- Settles O36: both rotations are the library's, whose bits and number are stated for every width. -/
theorem rotationsMoveEveryBit : Obligations.RotationsMoveEveryBit := by
  refine ⟨fun x r i _ hr hi => ⟨?_, rotl32_toNat x hr (by omega)⟩, fun x r i _ hr hi => ⟨?_, rotl64_toNat x hr (by omega)⟩⟩
  · rw [rotl32_eq_rotateLeft x hr, rotateLeft_getLsbD_add_mod x hr hi]
  · rw [rotl64_eq_rotateLeft x hr, rotateLeft_getLsbD_add_mod x hr hi]

/-! ### The chains of E32 -/

/-- The k-mix of E32: multiply, rotate by 15, multiply (R112). -/
theorem kmix32_toNat (k : U32) : (kmix32 k).toNat =
    (let a := k.toNat * 0xcc9e2d51 % 2 ^ 32
     let b := a * 2 ^ 15 % 2 ^ 32 + a / 2 ^ 17
     b * 0x1b873593 % 2 ^ 32) := by
  rw [kmix32, mul32_toNat, rotl32_toNat (q := 17) _ (by decide) rfl, mul32_toNat, c1w32_toNat, c2w32_toNat]

/-- The block round of E32: XOR, rotate by 13, multiply by 5, add (R113). -/
theorem hround32_toNat (h m : U32) : (hround32 h m).toNat =
    (let a := h.toNat ^^^ m.toNat
     let b := a * 2 ^ 13 % 2 ^ 32 + a / 2 ^ 19
     (b * 5 % 2 ^ 32 + 0xe6546b64) % 2 ^ 32) := by
  rw [hround32, add32_toNat, mul32_toNat, rotl32_toNat (q := 19) _ (by decide) rfl, BitVec.toNat_xor, m32_toNat, n32_toNat]

/-- The finalizer of E32: three xor-shifts with a product after each of the first two (R114). -/
theorem fmix32_toNat (h : U32) : (fmix32 h).toNat =
    (let s1 := h.toNat ^^^ (h.toNat / 2 ^ 16)
     let s2 := s1 * 0x85ebca6b % 2 ^ 32
     let s3 := s2 ^^^ (s2 / 2 ^ 13)
     let s4 := s3 * 0xc2b2ae35 % 2 ^ 32
     s4 ^^^ (s4 / 2 ^ 16)) := by
  simp only [fmix32, xsr32_toNat, mul32_toNat, f1w32_toNat, f2w32_toNat]

/-- Settles O37, a chain at a time. -/
theorem e32ChainsInArithmetic : Obligations.E32ChainsInArithmetic :=
  ⟨kmix32_toNat, hround32_toNat, fmix32_toNat⟩

/-! ### The chains of E128 -/

/-- The k-mix of lane 1: multiply, rotate by 31, multiply (R115). -/
theorem kmix1w64_toNat (k : U64) : (kmix1w64 k).toNat =
    (let a := k.toNat * 0x87c37b91114253d5 % 2 ^ 64
     let b := a * 2 ^ 31 % 2 ^ 64 + a / 2 ^ 33
     b * 0x4cf5ad432745937f % 2 ^ 64) := by
  rw [kmix1w64, mul64_toNat, rotl64_toNat (q := 33) _ (by decide) rfl, mul64_toNat, c1w64_toNat, c2w64_toNat]

/-- The k-mix of lane 2: the multipliers exchanged, the rotation 33 (R116). -/
theorem kmix2w64_toNat (k : U64) : (kmix2w64 k).toNat =
    (let a := k.toNat * 0x4cf5ad432745937f % 2 ^ 64
     let b := a * 2 ^ 33 % 2 ^ 64 + a / 2 ^ 31
     b * 0x87c37b91114253d5 % 2 ^ 64) := by
  rw [kmix2w64, mul64_toNat, rotl64_toNat (q := 31) _ (by decide) rfl, mul64_toNat, c1w64_toNat, c2w64_toNat]

/-- What one lane of the block round does with its XORed word `x` and the other lane's `y`: rotate, add, multiply by 5 and
add the lane's constant (R117). -/
theorem laneRound_toNat (x y n : U64) {r q : Nat} (hr : r < 64) (hq : r + q = 64) :
    ((rotl64 x r + y) * m64 + n).toNat =
      ((x.toNat * 2 ^ r % 2 ^ 64 + x.toNat / 2 ^ q + y.toNat) % 2 ^ 64 * 5 % 2 ^ 64 + n.toNat) % 2 ^ 64 := by
  rw [add64_toNat, mul64_toNat, add64_toNat, rotl64_toNat x hr hq, m64_toNat]

/-- Lane 1 of the block round adds the old `h2` (R117). -/
theorem blkround128_fst_toNat (h1 h2 k1 k2 : U64) : (blkround128 h1 h2 k1 k2).1.toNat =
    (let a := h1.toNat ^^^ (kmix1w64 k1).toNat
     let b := a * 2 ^ 27 % 2 ^ 64 + a / 2 ^ 37
     ((b + h2.toNat) % 2 ^ 64 * 5 % 2 ^ 64 + 0x52dce729) % 2 ^ 64) := by
  rw [blkround128, laneRound_toNat (q := 37) _ _ _ (by decide) rfl, BitVec.toNat_xor, n1w64_toNat]

/-- Lane 2 of the block round adds the new `h1` (R117). -/
theorem blkround128_snd_toNat (h1 h2 k1 k2 : U64) : (blkround128 h1 h2 k1 k2).2.toNat =
    (let e := h2.toNat ^^^ (kmix2w64 k2).toNat
     let f := e * 2 ^ 31 % 2 ^ 64 + e / 2 ^ 33
     ((f + (blkround128 h1 h2 k1 k2).1.toNat) % 2 ^ 64 * 5 % 2 ^ 64 + 0x38495ab5) % 2 ^ 64) := by
  rw [blkround128, laneRound_toNat (q := 33) _ _ _ (by decide) rfl, BitVec.toNat_xor, n2w64_toNat]

/-- The finalizer of a lane: three xor-shifts by 33 with a product after each of the first two (R118). -/
theorem fmix64_toNat (x : U64) : (fmix64 x).toNat =
    (let s1 := x.toNat ^^^ (x.toNat / 2 ^ 33)
     let s2 := s1 * 0xff51afd7ed558ccd % 2 ^ 64
     let s3 := s2 ^^^ (s2 / 2 ^ 33)
     let s4 := s3 * 0xc4ceb9fe1a85ec53 % 2 ^ 64
     s4 ^^^ (s4 / 2 ^ 33)) := by
  simp only [fmix64, xsr64_toNat, mul64_toNat, f1w64_toNat, f2w64_toNat]

/-- The word of a sum's number is the sum. -/
theorem ofNat_add64 (x y : U64) : BitVec.ofNat 64 ((x.toNat + y.toNat) % 2 ^ 64) = x + y := by
  rw [← add64_toNat, BitVec.ofNat_toNat, BitVec.setWidth_eq]

/-- The finalization: each second addition reads the sum just made (R119). -/
theorem final128_toNat (h1 h2 len : U64) :
    let a1 := h1 ^^^ len
    let a2 := h2 ^^^ len
    let b1 := (a1.toNat + a2.toNat) % 2 ^ 64
    let b2 := (a2.toNat + b1) % 2 ^ 64
    let c1 := (fmix64 (BitVec.ofNat 64 b1)).toNat
    let c2 := (fmix64 (BitVec.ofNat 64 b2)).toNat
    let d1 := (c1 + c2) % 2 ^ 64
    (final128 h1 h2 len).1.toNat = d1 ∧ (final128 h1 h2 len).2.toNat = (c2 + d1) % 2 ^ 64 := by
  intro a1 a2 b1 b2 c1 c2 d1
  have hb1 : BitVec.ofNat 64 b1 = a1 + a2 := ofNat_add64 a1 a2
  have hb2 : BitVec.ofNat 64 b2 = a2 + (a1 + a2) := by rw [← ofNat_add64 a2, add64_toNat a1 a2]
  have hd1 : (final128 h1 h2 len).1.toNat = d1 := by
    simp only [d1, c1, c2, hb1, hb2]
    exact add64_toNat ..
  refine ⟨hd1, ?_⟩
  rw [← hd1]
  simp only [c2, hb2]
  exact add64_toNat ..

/-- Settles O38, a chain at a time. -/
theorem e128ChainsInArithmetic : Obligations.E128ChainsInArithmetic :=
  ⟨kmix1w64_toNat, kmix2w64_toNat,
    fun h1 h2 k1 k2 => ⟨blkround128_fst_toNat h1 h2 k1 k2, blkround128_snd_toNat h1 h2 k1 k2⟩,
    fmix64_toNat, final128_toNat⟩

end Sys2Proof.Proofs
end

section
/-! PROOFS. The commands of E32 one by one, by command and by beat (41_x86_32_engine.md R141 to R144). -/

namespace Sys2Proof.Proofs

open Sys2Proof Sys2Proof.Machine Sys2Proof.Laws

/-! ### Words of the operands (20_memory.md R52, R57) -/

/-- The word of a block of four bytes has the last byte on top. -/
theorem blk32Word_bytes (b0 b1 b2 b3 : Byte) : blk32Word [b0, b1, b2, b3] = b3 ++ b2 ++ b1 ++ b0 := by
  apply BitVec.eq_of_toNat_eq
  rw [blk32Word, le32_toNat (by simp)]
  simp only [append_toNat, leNat_cons, leNat_nil]
  ring

/-- The word of a tail that is written out as a word of 32 bits. -/
theorem tail32Word_eq_of_leNat {bs : List Byte} {w : U32} (h : leNat bs = w.toNat) : tail32Word bs = w := by
  rw [tail32Word_eq, h, BitVec.ofNat_toNat, BitVec.setWidth_eq]

theorem tail32Word_one (b0 : Byte) : tail32Word [b0] = 0#24 ++ b0 :=
  tail32Word_eq_of_leNat (by simp only [append_toNat, leNat_cons, leNat_nil, BitVec.toNat_ofNat]; ring)

theorem tail32Word_two (b0 b1 : Byte) : tail32Word [b0, b1] = 0#16 ++ b1 ++ b0 :=
  tail32Word_eq_of_leNat (by simp only [append_toNat, leNat_cons, leNat_nil, BitVec.toNat_ofNat]; ring)

theorem tail32Word_three (b0 b1 b2 : Byte) : tail32Word [b0, b1, b2] = 0#8 ++ b2 ++ b1 ++ b0 :=
  tail32Word_eq_of_leNat (by simp only [append_toNat, leNat_cons, leNat_nil, BitVec.toNat_ofNat]; ring)

/-- A mixed empty tail is zero (40_datapath_primitives.md R120). -/
theorem kmix32_tail32Word_nil : kmix32 (tail32Word []) = 0 := by decide

/-! ### The commands in their phases (10_state.md R33) -/

theorem inOrder_blk32 {p : Phase} (h : p = .absorb) (bytes : List Byte) (q : Phase) :
    inOrder (.blk32 bytes) p q = true :=
  absorbs_iff.mpr h

theorem inOrder_tail32 {p : Phase} (h : p = .absorb) (bytes : List Byte) (q : Phase) :
    inOrder (.tail32 bytes) p q = true :=
  absorbs_iff.mpr h

theorem inOrder_fin32 {p : Phase} (h : p = .absorb ∨ p = .tailed) (q : Phase) : inOrder .fin32 p q = true :=
  finishes_iff.mpr h

/-! ### The commands -/

/-- Settles O21: `INIT32` is in order in every phase. -/
theorem init32StartsAMessage : Obligations.Init32StartsAMessage := by
  refine fun s he => ⟨fun seed => ⟨?_, rfl⟩, fun d => ?_⟩
  · rw [exec_in he rfl, effect_init32, writeE32_eq]
  · rw [step_command (decode_init32 d) he rfl, effect_init32, writeE32_release_eq, seedField]

/-- Settles O22: the word of the block by command and by beat, and the phase table for the fault. -/
theorem blk32AbsorbsABlock : Obligations.Blk32AbsorbsABlock := by
  refine fun s he => ⟨fun hp => ?_, fun hp d => step_out (decode_blk32 d) he (absorbs_eq_false_iff.mpr hp)⟩
  have ho := fun bytes => inOrder_blk32 hp bytes s.ph128
  refine ⟨fun b0 b1 b2 b3 => ?_, fun d => ?_⟩
  · rw [exec_in he (ho _), effect_blk32, writeE32_eq, blk32Word_bytes]
  · rw [step_command (decode_blk32 d) he (ho _), effect_blk32, writeE32_release_eq, blk32Word_lanes]
    rfl

/-- `TAIL32` in ABSORB, whatever its bytes (R143). -/
theorem exec_tail32 {s : State} (he : s.err = false) (hp : s.ph32 = .absorb) (bytes : List Byte) :
    exec (.tail32 bytes) s = .next { s with
      h32 := s.h32 ^^^ kmix32 (tail32Word bytes)
      len32 := s.len32 + BitVec.ofNat 32 bytes.length
      ph32 := .tailed } := by
  rw [exec_in he (inOrder_tail32 hp bytes _), effect_tail32, writeE32_eq]

/-- Settles O23: the words of the tails, and the phase table for the fault. -/
theorem tail32AbsorbsTheTail : Obligations.Tail32AbsorbsTheTail := by
  refine fun s he => ⟨fun hp => ?_, fun hp n d hn => step_out (decode_tail32 hn d) he (absorbs_eq_false_iff.mpr hp)⟩
  have htail := exec_tail32 he hp
  refine ⟨?_, fun b0 => ?_, fun b0 b1 => ?_, fun b0 b1 b2 => ?_, fun n d hn => ?_⟩
  · simp [htail, kmix32_tail32Word_nil]
  · rw [htail, tail32Word_one]
    rfl
  · rw [htail, tail32Word_two]
    rfl
  · rw [htail, tail32Word_three]
    rfl
  · rw [step_command (decode_tail32 hn d) he (inOrder_tail32 hp _ _), effect_tail32, writeE32_release_eq, tail32Word_lanes,
      lanes_length]
    rfl

/-- Settles O24: `FIN32` is in order in ABSORB and TAILED, and out of order in the other two phases. -/
theorem fin32Finalizes : Obligations.Fin32Finalizes := by
  refine fun s he => ⟨fun hp => ?_, fun hp d => step_out (decode_fin32 d) he (finishes_eq_false_iff.mpr hp)⟩
  have ho := inOrder_fin32 hp s.ph128
  refine ⟨?_, by simp [dig32Valid, he], fun d => ?_⟩
  · rw [exec_in he ho, effect_fin32, writeE32_eq]
  · rw [step_command (decode_fin32 d) he ho, effect_fin32, writeE32_release_eq]
    rfl

/-! ### A tail beside the padded block (R146) -/

/-- The word of a tail is the word of the block of its padded bytes. -/
theorem blk32Word_padLanes (bytes : List Byte) : blk32Word (padLanes 4 bytes) = tail32Word bytes := (rfl)

/-- A block's accumulator is the tail's, rotated, multiplied and added to (40_datapath_primitives.md R113). -/
theorem hround32_eq (h m : U32) : hround32 h m = rotl32 (h ^^^ m) 13 * 5 + 0xe6546b64 := by
  rw [hround32, m32, n32]

/-- The length after 1 to 3 bytes is not the length after 4. -/
theorem add_ofNat_ne_add_four (len : U32) {n : Nat} (hn : n ≤ 3) : len + BitVec.ofNat 32 n ≠ len + 4 := by
  bv_omega

/-- The mixed word of the rule's example. -/
theorem kmix32_example : kmix32 (tail32Word [0x6f]) = 0x73bcd07e := by decide

/-- Settles O46: the two commands read the same word, and only the block rotates, multiplies and adds. -/
theorem tailIsNotAPaddedBlock : Obligations.TailIsNotAPaddedBlock := by
  refine ⟨fun bytes => decide_eq_true_iff, fun bytes s he hp _ hn => ?_, fun s t u he hp hh hl ht hu => ?_⟩
  · refine ⟨_, _, exec_tail32 he hp bytes, exec_in he (inOrder_blk32 hp _ _), ?_⟩
    rw [effect_blk32, blk32Word_padLanes, hround32_eq]
    exact ⟨rfl, rfl, rfl, add_ofNat_ne_add_four s.len32 hn⟩
  · have hword : kmix32 (blk32Word [0x6f, 0x00, 0x00, 0x00]) = 0x73bcd07e := kmix32_example
    rw [exec_tail32 he hp, kmix32_example, hh, hl] at ht
    rw [exec_in he (inOrder_blk32 hp _ _), effect_blk32, hword, hh, hl] at hu
    cases ht
    cases hu
    exact ⟨rfl, rfl, rfl, rfl⟩

end Sys2Proof.Proofs
end

section
/-! PROOFS. Sequences of commands: a message on each engine, and two engines interleaved (10_state.md R37,
41_x86_32_engine.md R145, R147, 42_x64_128_engine.md R179). -/

namespace Sys2Proof.Proofs

open Sys2Proof Sys2Proof.Machine Sys2Proof.Laws

/-! ### One command, by the fault flag -/

/-- With `ERR` set a command is discarded. -/
theorem commandResult_faulted {s : State} (he : s.err = true) (i : Instr) : commandResult i s = s := by
  simp [commandResult, he]

/-- With `ERR = 0` and in order a command has its effect. -/
theorem commandResult_inOrder {i : Instr} {s : State} (he : s.err = false) (ho : inOrder i s.ph32 s.ph128 = true) :
    commandResult i s = effect i s := by
  simp [commandResult, he, ho]

/-- A command that leaves `ERR` clear found it clear, was in order, and had its effect. -/
theorem commandResult_clear {i : Instr} {s : State} (h : (commandResult i s).err = false) :
    s.err = false ∧ inOrder i s.ph32 s.ph128 = true ∧ commandResult i s = effect i s := by
  obtain ⟨he, hr⟩ | ⟨-, -, hr⟩ | ⟨he, ho, hr⟩ := exec_cases (exec_eq i s)
  · rw [hr, he] at h
    cases h
  · rw [hr, raiseFault_err] at h
    cases h
  · exact ⟨he, ho, hr⟩

/-! ### Sequences, by the fault flag -/

/-- With `ERR` set a sequence of commands is discarded (60_exceptions.md R216). -/
theorem execAll_faulted {s : State} (he : s.err = true) (cs : List Instr) : execAll cs s = .next s := by
  induction cs with
  | nil => rfl
  | cons i rest ih => rw [execAll_cons, commandResult_faulted he, ih]

/-- A sequence that ends with `ERR` clear began with it clear. -/
theorem err_of_execAll {cs : List Instr} {s t : State} (h : execAll cs s = .next t) (ht : t.err = false) :
    s.err = false := by
  cases he : s.err with
  | false => rfl
  | true =>
    rw [execAll_faulted he] at h
    cases h
    rw [he] at ht
    cases ht

/-- The first command of a sequence that ends with `ERR` clear was in order and had its effect. -/
theorem execAll_cons_clear {i : Instr} {rest : List Instr} {s t : State} (h : execAll (i :: rest) s = .next t)
    (ht : t.err = false) :
    s.err = false ∧ inOrder i s.ph32 s.ph128 = true ∧ execAll rest (effect i s) = .next t := by
  rw [execAll_cons] at h
  obtain ⟨he, ho, hr⟩ := commandResult_clear (err_of_execAll h ht)
  rw [hr] at h
  exact ⟨he, ho, h⟩

/-- A command in order goes first. -/
theorem execAll_cons_inOrder {i : Instr} {s : State} (he : s.err = false) (ho : inOrder i s.ph32 s.ph128 = true)
    (rest : List Instr) : execAll (i :: rest) s = execAll rest (effect i s) := by
  rw [execAll_cons, commandResult_inOrder he ho]

/-! ### Writes that meet -/

/-- Only the last write of E32 counts. -/
@[simp] theorem writeE32_writeE32 (h h' len len' : U32) (p p' : Phase) (s : State) :
    writeE32 h len p (writeE32 h' len' p' s) = writeE32 h len p s := (rfl)

/-- Only the last write of E128 counts. -/
@[simp] theorem writeE128_writeE128 (h h' : U64 × U64) (len len' : U64) (p p' : Phase) (s : State) :
    writeE128 h len p (writeE128 h' len' p' s) = writeE128 h len p s := (rfl)

/-- The two engines are written independently. -/
theorem writeE128_writeE32 (h len : U32) (p : Phase) (hs : U64 × U64) (len' : U64) (q : Phase) (s : State) :
    writeE128 hs len' q (writeE32 h len p s) = writeE32 h len p (writeE128 hs len' q s) := (rfl)

/-! ### Two engines interleaved (R37) -/

/-- The registers of E32 of the first state in the second. -/
def graftE32 (a b : State) : State := writeE32 a.h32 a.len32 a.ph32 b

theorem graftE32_self (s : State) : graftE32 s s = s := (rfl)

@[simp] theorem graftE32_h32 (a b : State) : (graftE32 a b).h32 = a.h32 := (rfl)
@[simp] theorem graftE32_len32 (a b : State) : (graftE32 a b).len32 = a.len32 := (rfl)
@[simp] theorem graftE32_ph32 (a b : State) : (graftE32 a b).ph32 = a.ph32 := (rfl)
@[simp] theorem graftE32_h1 (a b : State) : (graftE32 a b).h1 = b.h1 := (rfl)
@[simp] theorem graftE32_h2 (a b : State) : (graftE32 a b).h2 = b.h2 := (rfl)
@[simp] theorem graftE32_len128 (a b : State) : (graftE32 a b).len128 = b.len128 := (rfl)
@[simp] theorem graftE32_ph128 (a b : State) : (graftE32 a b).ph128 = b.ph128 := (rfl)
@[simp] theorem graftE32_err (a b : State) : (graftE32 a b).err = b.err := (rfl)

/-- The effect of a command that is not of E128 reaches only what E32 is grafted from. -/
theorem effect_graftE32_left {i : Instr} (h : isE128 i = false) (a b : State) :
    effect i (graftE32 a b) = graftE32 (effect i a) b := by
  revert h
  cases i <;> simp [isE128, graftE32]

/-- The effect of a command that is not of E32 reaches only what E32 is grafted onto. -/
theorem effect_graftE32_right {i : Instr} (h : isE32 i = false) (a b : State) :
    effect i (graftE32 a b) = graftE32 a (effect i b) := by
  revert h
  cases i <;> simp [isE32, graftE32, writeE128_writeE32]

/-- A command that is not of E128 does not look at `PH128`. -/
theorem inOrder_ph128 {i : Instr} (h : isE128 i = false) (p q q' : Phase) : inOrder i p q = inOrder i p q' := by
  revert h
  cases i <;> simp [isE128, inOrder]

/-- A command that is not of E32 does not look at `PH32`. -/
theorem inOrder_ph32 {i : Instr} (h : isE32 i = false) (p p' q : Phase) : inOrder i p q = inOrder i p' q := by
  revert h
  cases i <;> simp [isE32, inOrder]

/-- Commands of two kinds, the first without commands of E128 and the second without commands of E32: where each kind
alone ends with `ERR` clear, the sequence ends with the E32 registers of the first and all others of the second. -/
theorem execAll_graftE32 {p : Instr → Bool} (hp : ∀ i, p i = true → isE128 i = false)
    (hq : ∀ i, p i = false → isE32 i = false) {cs : List Instr} {a b t u : State}
    (hat : execAll (cs.filter p) a = .next t) (ht : t.err = false)
    (hbu : execAll (cs.filter fun i => !p i) b = .next u) (hu : u.err = false) :
    execAll cs (graftE32 a b) = .next (graftE32 t u) := by
  induction cs generalizing a b with
  | nil =>
    cases hat
    cases hbu
    rfl
  | cons i rest ih =>
    cases hi : p i with
    | true =>
      have h128 := hp i hi
      simp only [List.filter_cons, hi, Bool.not_true, if_true, Bool.false_eq_true, if_false] at hat hbu
      obtain ⟨-, ho, hrest⟩ := execAll_cons_clear hat ht
      have hb := err_of_execAll hbu hu
      rw [execAll_cons_inOrder (by simpa using hb) (by simpa [inOrder_ph128 h128 _ b.ph128 a.ph128] using ho),
        effect_graftE32_left h128]
      exact ih hrest hbu
    | false =>
      have h32 := hq i hi
      simp only [List.filter_cons, hi, Bool.not_false, if_true, Bool.false_eq_true, if_false] at hat hbu
      obtain ⟨hb, ho, hrest⟩ := execAll_cons_clear hbu hu
      rw [execAll_cons_inOrder (by simpa using hb) (by simpa [inOrder_ph32 h32 a.ph32 b.ph32] using ho),
        effect_graftE32_right h32]
      exact ih hat hrest

/-! ### A message on E32 -/

/-- The accumulator after a list of blocks. -/
def absorbed32 (h : U32) (blocks : List (List Byte)) : U32 :=
  blocks.foldl (fun h b => hround32 h (kmix32 (blk32Word b))) h

theorem absorbed32_cons (h : U32) (b : List Byte) (blocks : List (List Byte)) :
    absorbed32 h (b :: blocks) = absorbed32 (hround32 h (kmix32 (blk32Word b))) blocks := by
  rw [absorbed32, List.foldl_cons, absorbed32]

/-- The length word grows by `w` for one block and the blocks after it. -/
theorem add_ofNat_mul_succ {v : Nat} (len : BitVec v) (w n : Nat) :
    len + BitVec.ofNat v w + BitVec.ofNat v (w * n) = len + BitVec.ofNat v (w * (n + 1)) := by
  rw [BitVec.add_assoc, ← BitVec.ofNat_add, Nat.mul_succ, Nat.add_comm]

/-- A block in ABSORB (R142). -/
theorem execAll_cons_blk32 {s : State} (he : s.err = false) (h len : U32) (bytes : List Byte) (rest : List Instr) :
    execAll (.blk32 bytes :: rest) (writeE32 h len .absorb s) =
      execAll rest (writeE32 (hround32 h (kmix32 (blk32Word bytes))) (len + 4) .absorb s) :=
  calc execAll (.blk32 bytes :: rest) (writeE32 h len .absorb s)
    _ = execAll rest (effect (.blk32 bytes) (writeE32 h len .absorb s)) :=
      execAll_cons_inOrder ((writeE32_err ..).trans he) rfl rest
    _ = _ := by simp

/-- Blocks in ABSORB (R142). -/
theorem execAll_blk32s {s : State} (he : s.err = false) (blocks : List (List Byte)) (rest : List Instr) (h len : U32) :
    execAll (blocks.map .blk32 ++ rest) (writeE32 h len .absorb s) =
      execAll rest (writeE32 (absorbed32 h blocks) (len + BitVec.ofNat 32 (4 * blocks.length)) .absorb s) := by
  induction blocks generalizing h len with
  | nil => simp [absorbed32]
  | cons b blocks ih =>
    rw [List.map_cons, List.cons_append, execAll_cons_blk32 he, ih, List.length_cons, ← add_ofNat_mul_succ,
      absorbed32_cons]
    rfl

/-- `INIT32` and blocks, from any state with `ERR = 0`. -/
theorem execAll_open32 {s : State} (he : s.err = false) (seed : U32) (blocks : List (List Byte)) (rest : List Instr) :
    execAll (.init32 seed :: (blocks.map .blk32 ++ rest)) s =
      execAll rest (writeE32 (absorbed32 seed blocks) (BitVec.ofNat 32 (4 * blocks.length)) .absorb s) := by
  rw [execAll_cons_inOrder he rfl, effect_init32, execAll_blk32s he, zero_add]

/-- A tail in ABSORB (R143). -/
theorem execAll_cons_tail32 {s : State} (he : s.err = false) (h len : U32) (bytes : List Byte) (rest : List Instr) :
    execAll (.tail32 bytes :: rest) (writeE32 h len .absorb s) =
      execAll rest (writeE32 (h ^^^ kmix32 (tail32Word bytes)) (len + BitVec.ofNat 32 bytes.length) .tailed s) :=
  calc execAll (.tail32 bytes :: rest) (writeE32 h len .absorb s)
    _ = execAll rest (effect (.tail32 bytes) (writeE32 h len .absorb s)) :=
      execAll_cons_inOrder ((writeE32_err ..).trans he) rfl rest
    _ = _ := by simp

/-- `FIN32` in ABSORB or TAILED closes the message (R144). -/
theorem execAll_fin32 {s : State} (he : s.err = false) (h len : U32) {p : Phase} (hp : p = .absorb ∨ p = .tailed) :
    execAll [.fin32] (writeE32 h len p s) = .next (writeE32 (fmix32 (h ^^^ len)) len .done s) :=
  calc execAll [.fin32] (writeE32 h len p s)
    _ = execAll [] (effect .fin32 (writeE32 h len p s)) :=
      execAll_cons_inOrder ((writeE32_err ..).trans he) (inOrder_fin32 hp _) []
    _ = _ := by simp [execAll_nil]

/-- A tail and `FIN32` close the message (R143, R144). -/
theorem execAll_close32 {s : State} (he : s.err = false) (h len : U32) (tail : List Byte) :
    execAll [.tail32 tail, .fin32] (writeE32 h len .absorb s) =
      .next (writeE32 (fmix32 (h ^^^ kmix32 (tail32Word tail) ^^^ (len + BitVec.ofNat 32 tail.length)))
        (len + BitVec.ofNat 32 tail.length) .done s) := by
  rw [execAll_cons_tail32 he, execAll_fin32 he _ _ (.inr rfl)]

/-- A whole message on E32, from any state with `ERR = 0`. -/
theorem execAll_message32 {s : State} (he : s.err = false) (seed : U32) (blocks : List (List Byte)) (tail : List Byte) :
    execAll (.init32 seed :: (blocks.map .blk32 ++ [.tail32 tail, .fin32])) s =
      .next (writeE32
        (fmix32 (absorbed32 seed blocks ^^^ kmix32 (tail32Word tail) ^^^
          BitVec.ofNat 32 (4 * blocks.length + tail.length)))
        (BitVec.ofNat 32 (4 * blocks.length + tail.length)) .done s) := by
  rw [execAll_open32 he, execAll_close32 he, ← BitVec.ofNat_add]

/-- The blocks and the tail of a message have its length (20_memory.md R54). -/
theorem length_split (w : Nat) (M : List Byte) :
    w * (fullBlocks w M).length + (tailBytes w M).length = M.length := by
  have hle := Nat.mul_div_le M.length w
  simp only [fullBlocks, tailBytes, List.length_map, List.length_range, List.length_drop]
  omega

/-- The hash of a message is what its blocks and its tail leave (R140). -/
theorem hash32_eq (M : List Byte) (seed : U32) :
    hash32 M seed = fmix32 (absorbed32 seed (fullBlocks 4 M) ^^^ kmix32 (tail32Word (tailBytes 4 M)) ^^^
      BitVec.ofNat 32 M.length) := by
  rw [hash32, blocks32, List.foldl_map]
  rfl

/-- The expansion of `HASH32`, from any state with `ERR = 0` (R145). -/
theorem execAll_expandHash32 {s : State} (he : s.err = false) (seed : U32) (M : List Byte) :
    execAll (expandHash32 seed M) s = .next (writeE32 (hash32 M seed) (BitVec.ofNat 32 M.length) .done s) := by
  rw [expandHash32, execAll_message32 he, length_split, hash32_eq]

/-- A command of E32 is none of E128. -/
theorem isE128_of_isE32 (i : Instr) (h : isE32 i = true) : isE128 i = false := by
  revert h
  cases i <;> simp [isE32, isE128]

/-- Settles O43: the expansion alone leaves the digest, and what is interleaved with it leaves the registers of E32. -/
theorem hash32IsComputed : Obligations.Hash32IsComputed := by
  refine ⟨fun seed M cs s he hcs ⟨u, hsu, hu⟩ => ?_, fun seed blocks tail s he _ _ => ?_⟩
  · have hexp := execAll_expandHash32 he seed M
    rw [← hcs] at hexp
    have hall := execAll_graftE32 isE128_of_isE32 (fun _ h => h) hexp ((writeE32_err ..).trans he) hsu hu
    rw [graftE32_self] at hall
    exact ⟨_, hall, by simp [hu, dig32Valid, dig32]⟩
  · exact ⟨_, execAll_message32 he seed blocks tail, by rw [writeE32_h32, absorbed32, tail32Word]; rfl⟩

/-! ### A message on E128 -/

/-- The lanes after a list of blocks. -/
def absorbed128 (h : U64 × U64) (blocks : List (List Byte)) : U64 × U64 :=
  blocks.foldl (fun h b => blkround128 h.1 h.2 (blk128Words b).1 (blk128Words b).2) h

theorem absorbed128_cons (h : U64 × U64) (b : List Byte) (blocks : List (List Byte)) :
    absorbed128 h (b :: blocks) =
      absorbed128 (blkround128 h.1 h.2 (blk128Words b).1 (blk128Words b).2) blocks := by
  rw [absorbed128, List.foldl_cons, absorbed128]

/-- A block in ABSORB (R172). -/
theorem execAll_cons_blk128 {s : State} (he : s.err = false) (h : U64 × U64) (len : U64) (bytes : List Byte)
    (rest : List Instr) :
    execAll (.blk128 bytes :: rest) (writeE128 h len .absorb s) =
      execAll rest (writeE128 (blkround128 h.1 h.2 (blk128Words bytes).1 (blk128Words bytes).2) (len + 16) .absorb s) :=
  calc execAll (.blk128 bytes :: rest) (writeE128 h len .absorb s)
    _ = execAll rest (effect (.blk128 bytes) (writeE128 h len .absorb s)) :=
      execAll_cons_inOrder ((writeE128_err ..).trans he) rfl rest
    _ = _ := by simp

/-- Blocks in ABSORB (R172). -/
theorem execAll_blk128s {s : State} (he : s.err = false) (blocks : List (List Byte)) (rest : List Instr) (h : U64 × U64)
    (len : U64) :
    execAll (blocks.map .blk128 ++ rest) (writeE128 h len .absorb s) =
      execAll rest (writeE128 (absorbed128 h blocks) (len + BitVec.ofNat 64 (16 * blocks.length)) .absorb s) := by
  induction blocks generalizing h len with
  | nil => simp [absorbed128]
  | cons b blocks ih =>
    rw [List.map_cons, List.cons_append, execAll_cons_blk128 he, ih, List.length_cons, ← add_ofNat_mul_succ,
      absorbed128_cons]
    rfl

/-- `INIT128` and blocks, from any state with `ERR = 0`. -/
theorem execAll_open128 {s : State} (he : s.err = false) (seed : U32) (blocks : List (List Byte)) (rest : List Instr) :
    execAll (.init128 seed :: (blocks.map .blk128 ++ rest)) s =
      execAll rest (writeE128 (absorbed128 (zext64 seed, zext64 seed) blocks) (BitVec.ofNat 64 (16 * blocks.length))
        .absorb s) := by
  rw [execAll_cons_inOrder he rfl, effect_init128, execAll_blk128s he, zero_add]

/-- A tail in ABSORB (R173). -/
theorem execAll_cons_tail128 {s : State} (he : s.err = false) (h : U64 × U64) (len : U64) (bytes : List Byte)
    (rest : List Instr) :
    execAll (.tail128 bytes :: rest) (writeE128 h len .absorb s) =
      execAll rest (writeE128 (h.1 ^^^ kmix1w64 (tail128Words bytes).1, h.2 ^^^ kmix2w64 (tail128Words bytes).2)
        (len + BitVec.ofNat 64 bytes.length) .tailed s) :=
  calc execAll (.tail128 bytes :: rest) (writeE128 h len .absorb s)
    _ = execAll rest (effect (.tail128 bytes) (writeE128 h len .absorb s)) :=
      execAll_cons_inOrder ((writeE128_err ..).trans he) rfl rest
    _ = _ := by simp

theorem inOrder_fin128 {q : Phase} (h : q = .absorb ∨ q = .tailed) (p : Phase) : inOrder .fin128 p q = true :=
  finishes_iff.mpr h

/-- `FIN128` in ABSORB or TAILED closes the message (R174). -/
theorem execAll_fin128 {s : State} (he : s.err = false) (h : U64 × U64) (len : U64) {q : Phase}
    (hq : q = .absorb ∨ q = .tailed) :
    execAll [.fin128] (writeE128 h len q s) = .next (writeE128 (final128 h.1 h.2 len) len .done s) :=
  calc execAll [.fin128] (writeE128 h len q s)
    _ = execAll [] (effect .fin128 (writeE128 h len q s)) :=
      execAll_cons_inOrder ((writeE128_err ..).trans he) (inOrder_fin128 hq _) []
    _ = _ := by simp [execAll_nil]

/-- A tail and `FIN128` close the message (R173, R174). -/
theorem execAll_close128 {s : State} (he : s.err = false) (h : U64 × U64) (len : U64) (tail : List Byte) :
    execAll [.tail128 tail, .fin128] (writeE128 h len .absorb s) =
      .next (writeE128 (final128 (h.1 ^^^ kmix1w64 (tail128Words tail).1) (h.2 ^^^ kmix2w64 (tail128Words tail).2)
        (len + BitVec.ofNat 64 tail.length)) (len + BitVec.ofNat 64 tail.length) .done s) := by
  rw [execAll_cons_tail128 he, execAll_fin128 he _ _ (.inr rfl)]

/-! ### An empty tail (R147, R179) -/

/-- Mixed words of an empty tail are zero (40_datapath_primitives.md R120). -/
theorem kmix1w64_tail128Words_nil : kmix1w64 (tail128Words []).1 = 0 := by decide

theorem kmix2w64_tail128Words_nil : kmix2w64 (tail128Words []).2 = 0 := by decide

/-- Closing a message of E32 with an empty tail is closing it without one. -/
theorem execAll_close32_nil {s : State} (he : s.err = false) (h len : U32) :
    execAll [.tail32 [], .fin32] (writeE32 h len .absorb s) = execAll [.fin32] (writeE32 h len .absorb s) := by
  rw [execAll_close32 he, execAll_fin32 he _ _ (.inl rfl), kmix32_tail32Word_nil]
  simp

/-- Closing a message of E128 with an empty tail is closing it without one. -/
theorem execAll_close128_nil {s : State} (he : s.err = false) (h : U64 × U64) (len : U64) :
    execAll [.tail128 [], .fin128] (writeE128 h len .absorb s) = execAll [.fin128] (writeE128 h len .absorb s) := by
  rw [execAll_close128 he, execAll_fin128 he _ _ (.inl rfl), kmix1w64_tail128Words_nil, kmix2w64_tail128Words_nil]
  simp

/-- Settles O45: after a fault both sequences are discarded, and otherwise both close the same open message. -/
theorem emptyTailMayBeLeftOut : Obligations.EmptyTailMayBeLeftOut := by
  refine ⟨fun seed blocks s => ?_, fun seed blocks s => ?_⟩
  · cases he : s.err with
    | true => exact ⟨s, execAll_faulted he _, execAll_faulted he _⟩
    | false =>
      rw [execAll_open32 he, execAll_open32 he, execAll_close32_nil he]
      exact ⟨_, execAll_fin32 he _ _ (.inl rfl), execAll_fin32 he _ _ (.inl rfl)⟩
  · cases he : s.err with
    | true => exact ⟨s, execAll_faulted he _, execAll_faulted he _⟩
    | false =>
      rw [execAll_open128 he, execAll_open128 he, execAll_close128_nil he]
      exact ⟨_, execAll_fin128 he _ _ (.inl rfl), execAll_fin128 he _ _ (.inl rfl)⟩

end Sys2Proof.Proofs
end

section
/-! PROOFS. The commands of E128 one by one, by command and by beat, and a whole message on E128
(42_x64_128_engine.md R171 to R174, R176, R178). -/

namespace Sys2Proof.Proofs

open Sys2Proof Sys2Proof.Machine Sys2Proof.Laws

/-! ### Words of the operands (20_memory.md R52, R57) -/

/-- The zero-extended seed has 32 zero bits on top (40_datapath_primitives.md R109). -/
theorem zext64_eq_append (seed : U32) : zext64 seed = 0#32 ++ seed := by
  apply BitVec.eq_of_toNat_eq
  rw [zext64_toNat, append_toNat, BitVec.toNat_ofNat]
  omega

/-- Zero bytes on top do not change a word. -/
theorem le64_append_zeros (bs : List Byte) (n : Nat) : le64 (bs ++ List.replicate n 0) = le64 bs := by
  simp [le64, leNat_append]

/-- The words of a tail are those of its bytes: the zero lanes of each word count nothing. -/
theorem tail128Words_eq_blk128Words (bs : List Byte) : tail128Words bs = blk128Words bs := by
  simp only [tail128Words, blk128Words, padLanes, List.take_append, List.drop_append, List.take_replicate,
    List.drop_replicate, le64_append_zeros]

/-- The second word of a tail of at most eight bytes is zero (42_x64_128_engine.md R173). -/
theorem tail128Words_snd_of_length_le {bs : List Byte} (h : bs.length ≤ 8) : (tail128Words bs).2 = 0 := by
  rw [tail128Words_eq_blk128Words, blk128Words, List.drop_eq_nil_of_le h]
  rfl

/-- A mixed zero word is zero (40_datapath_primitives.md R120). -/
theorem kmix2w64_zero : kmix2w64 0 = 0 := by decide

/-- Bit `q` of byte `p` of a number is bit `8p + q` of the number. -/
theorem testBit_leNat (bs : List Byte) (p : Nat) {q : Nat} (hq : q < 8) :
    (leNat bs).testBit (8 * p + q) = (bs.getD p 0).getLsbD q := by
  have hmod : (bs.getD p 0).toNat = leNat bs / 2 ^ (8 * p) % 2 ^ 8 := (leNat_byte bs p).symm
  rw [← BitVec.testBit_toNat, hmod, Nat.testBit_mod_two_pow, Nat.testBit_div_two_pow, decide_eq_true hq, Bool.true_and,
    Nat.add_comm]

/-- Settles O34: byte `p` is at bit `8p` of the tail's number, which is bit `8 (p mod 8)` of the word it falls in. -/
theorem tailBytesLandAtTheirShifts : Obligations.TailBytesLandAtTheirShifts := by
  intro bytes p q hl hp hq
  rw [← testBit_leNat bytes p hq]
  by_cases h8 : p < 8
  · rw [if_pos h8, tail128Words_fst_getLsbD (by omega) (by omega), Nat.mod_eq_of_lt h8]
  · have hpos : 64 + (8 * (p % 8) + q) = 8 * p + q := by omega
    rw [if_neg h8, tail128Words_snd_getLsbD (by omega) (by omega), hpos]

/-! ### The commands in ABSORB (10_state.md R33) -/

theorem inOrder_blk128 {q : Phase} (h : q = .absorb) (bytes : List Byte) (p : Phase) :
    inOrder (.blk128 bytes) p q = true :=
  absorbs_iff.mpr h

theorem inOrder_tail128 {q : Phase} (h : q = .absorb) (bytes : List Byte) (p : Phase) :
    inOrder (.tail128 bytes) p q = true :=
  absorbs_iff.mpr h

/-! ### The commands -/

/-- Settles O25: `INIT128` is in order in every phase. -/
theorem init128StartsAMessage : Obligations.Init128StartsAMessage := by
  refine fun s he => ⟨fun seed => ⟨?_, rfl⟩, fun d => ?_⟩
  · rw [exec_in he rfl, effect_init128, writeE128_eq, zext64_eq_append]
  · rw [step_command (decode_init128 d) he rfl, effect_init128, writeE128_release_eq, zext64_eq_append, seedField]

/-- Settles O26: the words of the block by command and by beat, and the phase table for the fault. -/
theorem blk128AbsorbsABlock : Obligations.Blk128AbsorbsABlock := by
  refine fun s he => ⟨fun hp => ?_, fun hp d => step_out (decode_blk128 d) he (absorbs_eq_false_iff.mpr hp)⟩
  have ho := fun bytes => inOrder_blk128 hp bytes s.ph32
  refine ⟨fun bytes _ => ?_, fun d => ?_⟩
  · rw [exec_in he (ho _), effect_blk128, writeE128_eq, blk128Words]
  · rw [step_command (decode_blk128 d) he (ho _), effect_blk128, writeE128_release_eq, blk128Words_lanes]
    rfl

/-- `TAIL128` in ABSORB, whatever its bytes (R173). -/
theorem exec_tail128 {s : State} (he : s.err = false) (hp : s.ph128 = .absorb) (bytes : List Byte) :
    exec (.tail128 bytes) s = .next { s with
      h1 := s.h1 ^^^ kmix1w64 (tail128Words bytes).1
      h2 := s.h2 ^^^ kmix2w64 (tail128Words bytes).2
      len128 := s.len128 + BitVec.ofNat 64 bytes.length
      ph128 := .tailed } := by
  rw [exec_in he (inOrder_tail128 hp bytes _), effect_tail128, writeE128_eq]

/-- Settles O27: the words of the tail by command and by beat, and the phase table for the fault. -/
theorem tail128AbsorbsTheTail : Obligations.Tail128AbsorbsTheTail := by
  refine fun s he => ⟨fun hp => ?_, fun hp n d hn => step_out (decode_tail128 hn d) he (absorbs_eq_false_iff.mpr hp)⟩
  have htail := exec_tail128 he hp
  refine ⟨fun bytes _ => ?_, ?_, fun bytes t hl ht => ?_, fun n d hn => ?_⟩
  · rw [htail, tail128Words_eq_blk128Words, blk128Words, le64_append_zeros, le64_append_zeros]
  · simp [htail, kmix1w64_tail128Words_nil, kmix2w64_tail128Words_nil]
  · rw [htail, tail128Words_snd_of_length_le hl, kmix2w64_zero] at ht
    cases ht
    exact BitVec.xor_zero
  · have hl : (lanes n d).length ≤ 16 := (lanes_length n d).trans_le (by omega)
    rw [step_command (decode_tail128 hn d) he (inOrder_tail128 hp _ _), effect_tail128, writeE128_release_eq,
      tail128Words_eq hl, leNat_lanes, lanes_length]
    rfl

/-- Settles O28: `FIN128` is in order in ABSORB and TAILED, and out of order in the other two phases. -/
theorem fin128Finalizes : Obligations.Fin128Finalizes := by
  refine fun s he => ⟨fun hp => ?_, fun hp d => step_out (decode_fin128 d) he (finishes_eq_false_iff.mpr hp)⟩
  have ho := inOrder_fin128 hp s.ph32
  refine ⟨?_, by simp [dig128Valid, he], fun d => ?_⟩
  · rw [exec_in he ho, effect_fin128, writeE128_eq]
  · rw [step_command (decode_fin128 d) he ho, effect_fin128, writeE128_release_eq]
    rfl

/-! ### A message on E128 (R176) -/

/-- A whole message on E128, from any state with `ERR = 0`. -/
theorem execAll_message128 {s : State} (he : s.err = false) (seed : U32) (blocks : List (List Byte)) (tail : List Byte) :
    execAll (.init128 seed :: (blocks.map .blk128 ++ [.tail128 tail, .fin128])) s =
      .next (writeE128
        (final128 ((absorbed128 (zext64 seed, zext64 seed) blocks).1 ^^^ kmix1w64 (tail128Words tail).1)
          ((absorbed128 (zext64 seed, zext64 seed) blocks).2 ^^^ kmix2w64 (tail128Words tail).2)
          (BitVec.ofNat 64 (16 * blocks.length + tail.length)))
        (BitVec.ofNat 64 (16 * blocks.length + tail.length)) .done s) := by
  rw [execAll_open128 he, execAll_close128 he, ← BitVec.ofNat_add]

/-- The hash of a message is what its blocks and its tail leave (R170). -/
theorem hash128_eq (M : List Byte) (seed : U32) :
    hash128 M seed =
      final128
        ((absorbed128 (zext64 seed, zext64 seed) (fullBlocks 16 M)).1 ^^^ kmix1w64 (tail128Words (tailBytes 16 M)).1)
        ((absorbed128 (zext64 seed, zext64 seed) (fullBlocks 16 M)).2 ^^^ kmix2w64 (tail128Words (tailBytes 16 M)).2)
        (BitVec.ofNat 64 M.length) := by
  rw [hash128, blocks128, List.foldl_map]
  rfl

/-- The expansion of `HASH128`, from any state with `ERR = 0` (R176). -/
theorem execAll_expandHash128 {s : State} (he : s.err = false) (seed : U32) (M : List Byte) :
    execAll (expandHash128 seed M) s = .next (writeE128 (hash128 M seed) (BitVec.ofNat 64 M.length) .done s) := by
  rw [expandHash128, execAll_message128 he, length_split, hash128_eq]

/-- A command of E128 is none of E32. -/
theorem isE32_of_isE128 (i : Instr) (h : isE128 i = true) : isE32 i = false := by
  cases h32 : isE32 i with
  | false => rfl
  | true => rw [isE128_of_isE32 i h32] at h; cases h

/-- Settles O44: the expansion alone leaves the lanes, and what is interleaved with it leaves the registers of E128. -/
theorem hash128IsComputed : Obligations.Hash128IsComputed := by
  intro seed M cs s he hcs ⟨u, hsu, hu⟩
  have hexp := execAll_expandHash128 he seed M
  have hfilter : (cs.filter fun i => !!isE128 i) = expandHash128 seed M := by simpa using hcs
  rw [← hfilter] at hexp
  have hall := execAll_graftE32 (p := fun i => !isE128 i) (by simp) (by simpa using isE32_of_isE128) hsu hu hexp
    ((writeE128_err ..).trans he)
  rw [graftE32_self] at hall
  exact ⟨_, hall, by simp [he, dig128Valid]⟩

end Sys2Proof.Proofs
end

section
/-! PROOFS. `NOP` by command and by beat (43_control.md R200). -/

namespace Sys2Proof.Proofs

open Sys2Proof Sys2Proof.Machine Sys2Proof.Laws

/-- `NOP` leaves every state as it is: with `ERR = 1` it is discarded, and else it is in order in every phase and its
effect is nothing. -/
theorem commandResult_nop (s : State) : commandResult .nop s = s := by
  cases he : s.err with
  | true => exact commandResult_faulted he .nop
  | false => rw [commandResult_inOrder he rfl, effect_nop]

/-- A beat with opcode byte 0 leaves every state as it is, whatever its payload. -/
theorem beatResult_nop (d : U128) (s : State) : beatResult { op := 0x00, data := d } s = s := by
  simp only [beatResult, decode_nop, commandResult_nop]

/-- Settles O20: `NOP` leaves the state, and the step that accepts its beat only releases the block. -/
theorem nopWritesNothing : Obligations.NopWritesNothing := by
  refine fun s => ⟨?_, fun d => ?_⟩
  · rw [exec_eq, commandResult_nop]
  · rw [step_presenting, beatResult_nop, release]

end Sys2Proof.Proofs
end

section
/-! PROOFS. Fault entry, the order of its checks, and the block after it (60_exceptions.md R212 to R216, R218). -/

namespace Sys2Proof.Proofs

open Sys2Proof Sys2Proof.Machine Sys2Proof.Safety Sys2Proof.Laws

/-! ### Fault entry (R212, R214, R215) -/

/-- A beat that faults of itself raises `IllegalOp` if its byte is reserved and `Sequence` if it is not. -/
theorem acceptBeat_fault {b : Beat} {s t : State} (he : s.err = false) (h : acceptBeat b s = .next t)
    (ht : t.err = true) :
    (reservedRows b.op.toNat ∧ t = raiseFault .illegalOp b.op s) ∨
    (¬ reservedRows b.op.toNat ∧ t = raiseFault .sequence b.op s) := by
  rw [acceptBeat_eq, Host.Outcome.next.injEq] at h
  subst h
  obtain ⟨hs, -⟩ | ⟨-, hres, hr⟩ | ⟨-, ⟨i, hd, -⟩, hr⟩ | ⟨-, i, -, -, hr⟩ := beat_cases b s
  · cases he.symm.trans hs
  · exact .inl ⟨(reserved_iff b).mp hres, hr⟩
  · exact .inr ⟨(command_iff b).mp ⟨i, hd⟩, hr⟩
  · rw [hr, effect_err, he] at ht
    cases ht

/-- Settles O8: the edge accepts the beat, and a reserved byte raises `IllegalOp` whatever the phases. -/
theorem reservedBeatRaisesIllegalOp : Obligations.ReservedBeatRaisesIllegalOp := by
  intro s b rest hp hr hh hres he
  have hb : beatResult b s = raiseFault .illegalOp b.op s := by
    simpa [acceptBeat_eq] using acceptBeat_reserved hres he
  rw [step_accepts (accepted_of hp hr hh), hb, pastBeat, raiseFault_rst, raiseFault_port, hp]
  rfl

/-- Settles O9: with `ERR` set a beat is discarded, and with `ERR` clear the byte alone decides which cause it can
report. -/
theorem faultChecksComeInOrder : Obligations.FaultChecksComeInOrder := by
  refine ⟨fun b s he => ?_, fun b s t he h ht => ?_, fun d s he _ => ?_⟩
  · rw [acceptBeat_eq, beatResult_err he]
  · obtain ⟨hres, rfl⟩ | ⟨hres, rfl⟩ := acceptBeat_fault he h ht
    · exact ⟨iff_of_true rfl hres, iff_of_false nofun (not_not.mpr hres)⟩
    · exact ⟨iff_of_false nofun hres, iff_of_true rfl hres⟩
  · exact acceptBeat_reserved (by decide : reservedRows (0x21 : Byte).toNat) he

/-- No valid flag is set in a faulted block (10_state.md R34). -/
theorem valid_faulted {s : State} (he : s.err = true) : dig32Valid s = false ∧ dig128Valid s = false := by
  simp [dig32Valid, dig128Valid, he]

/-- Settles O18: either cause is a `raiseFault`, and the fields of the status word are read one by one. -/
theorem faultEntryWritesTheRecordOnly : Obligations.FaultEntryWritesTheRecordOnly := by
  intro b s t he h ht
  obtain ⟨hv32, hv128⟩ := valid_faulted ht
  have hstatus : (status t).getLsbD 4 = true ∧ (status t).extractLsb' 5 2 = causeCode t.ecode ∧
      (status t).extractLsb' 8 8 = t.eop :=
    ⟨(status_err t).trans ht, status_ecode t, status_eop t⟩
  obtain ⟨-, rfl⟩ | ⟨-, rfl⟩ := acceptBeat_fault he h ht
  · exact ⟨.inl rfl, rfl, hv32, hv128, hstatus⟩
  · exact ⟨.inr rfl, rfl, hv32, hv128, hstatus⟩

/-! ### Commands by the phase of their engine (R213) -/

/-- A command in order does not fault. -/
theorem err_of_exec_inOrder {i : Instr} {s t : State} (he : s.err = false) (ho : inOrder i s.ph32 s.ph128 = true)
    (h : exec i s = .next t) : t.err = false := by
  rw [exec_in he ho, Host.Outcome.next.injEq] at h
  rw [← h, effect_err, he]

theorem opcodeOf_tail32 (bytes : List Byte) : opcodeOf (.tail32 bytes) = 0x30 + BitVec.ofNat 8 bytes.length :=
  BitVec.ofNat_add 0x30 bytes.length

theorem opcodeOf_tail128 (bytes : List Byte) : opcodeOf (.tail128 bytes) = 0xB0 + BitVec.ofNat 8 bytes.length :=
  BitVec.ofNat_add 0xB0 bytes.length

/-- Settles O17: each clause is one row of the phase table, in which `inOrder` reads the command's own engine only. -/
theorem outOfOrderCommandsRaiseSequence : Obligations.OutOfOrderCommandsRaiseSequence := by
  intro s he
  have legal {i : Instr} {t : State} := err_of_exec_inOrder (i := i) (t := t) he
  refine ⟨fun hp bytes => ⟨?_, fun _ => ?_⟩, fun hp => ?_, fun hq bytes => ⟨?_, fun _ => ?_⟩, fun hq => ?_,
    fun seed t h => ?_, fun bytes t hp h => ?_, fun bytes t hq h => ?_,
    fun t hp => legal (inOrder_fin32 (.inr hp) _), fun t hq => legal (inOrder_fin128 (.inr hq) _)⟩
  · exact exec_out he (absorbs_eq_false_iff.mpr hp)
  · rw [exec_out (i := .tail32 bytes) he (absorbs_eq_false_iff.mpr hp), opcodeOf_tail32, raiseFault_eq]
  · exact exec_out he (finishes_eq_false_iff.mpr hp)
  · exact exec_out he (absorbs_eq_false_iff.mpr hq)
  · rw [exec_out (i := .tail128 bytes) he (absorbs_eq_false_iff.mpr hq), opcodeOf_tail128, raiseFault_eq]
  · exact exec_out he (finishes_eq_false_iff.mpr hq)
  · obtain h | h | h := h
    · exact legal rfl h
    · exact legal rfl h
    · exact legal rfl h
  · obtain h | h | h := h
    · exact legal (inOrder_blk32 hp _ _) h
    · exact legal (inOrder_tail32 hp _ _) h
    · exact legal (inOrder_fin32 (.inl hp) _) h
  · obtain h | h | h := h
    · exact legal (inOrder_blk128 hq _ _) h
    · exact legal (inOrder_tail128 hq _ _) h
    · exact legal (inOrder_fin128 (.inl hq) _) h

/-! ### The block after a fault (R216, R218) -/

/-- A stretch without reset is an edge without reset and a stretch from any state that has the rest of `rst` to come. -/
theorem noReset_succ {k : Nat} {s : State} (h : noReset (k + 1) s = true) :
    nextRst s = false ∧ ∀ t : State, t.rst = s.rst.tail → noReset k t = true := by
  simp only [noReset, nextRst] at h ⊢
  cases hr : s.rst with
  | nil => exact ⟨rfl, fun t ht => by simp [ht]⟩
  | cons r rest =>
    simp only [hr, List.take_succ_cons, List.all_cons, Bool.and_eq_true, Bool.not_eq_true'] at h
    exact ⟨h.1, fun t ht => by rw [ht]; exact h.2⟩

/-- A ready block in the faulted state takes the host's next move and changes nothing else, whether or not the move
presents a beat. -/
theorem step_faulted_ready {s : State} (he : s.err = true) (hr : nextRst s = false) (hh : s.held = false) :
    step s = .next (pastBeat s) := by
  have hquiet (ha : accepted s = none) (hp : afterWaiting s.port = s.port.tail) : step s = .next (pastBeat s) := by
    rw [step_waits hr ha, release_self hh, pastEdge, hp, pastBeat]
  match hp : s.port with
  | [] => exact hquiet (by simp [accepted, hp]) (by simp [afterWaiting, hp])
  | .quiet _ :: _ => exact hquiet (by simp [accepted, hp]) (by simp [afterWaiting, hp])
  | .present b :: _ => rw [step_accepts (accepted_of hp hr hh), beatResult_err he]

/-- An edge out of reset releases a held block and accepts nothing (R240). -/
theorem step_held {s : State} (hr : nextRst s = false) (hh : s.held = true) :
    step s = .next (pastEdge (release s)) :=
  step_waits hr (accepted_none (by simp [cmdReady, hh]))

/-- A ready block in the faulted state takes one move of the host at every edge. -/
theorem run_faulted_ready {k : Nat} {s : State} (he : s.err = true) (hn : noReset k s = true) (hh : s.held = false) :
    Sys2Proof.core.run k s = .next (withInput (s.rst.drop k) (s.port.drop k) s) := by
  induction k generalizing s with
  | zero => exact run_zero s
  | succ k ih =>
    obtain ⟨hr, hrest⟩ := noReset_succ hn
    rw [run_succ (step_faulted_ready he hr hh), ih (s := pastBeat s) he (hrest _ rfl) hh, pastBeat_rst, pastBeat_port,
      List.drop_tail, List.drop_tail, pastBeat, withInput_withInput]

/-- A faulted block keeps its registers at every edge without reset; a block still held is released by the first. -/
theorem run_faulted {k : Nat} {s : State} (he : s.err = true) (hn : noReset k s = true) :
    ∃ t, Sys2Proof.core.run k s = .next t ∧ sameRegisters t s := by
  cases hh : s.held with
  | false => exact ⟨_, run_faulted_ready he hn hh, by simp [sameRegisters]⟩
  | true =>
    cases k with
    | zero => exact ⟨s, run_zero s, by simp [sameRegisters]⟩
    | succ k =>
      obtain ⟨hr, hrest⟩ := noReset_succ hn
      have hrun := run_faulted_ready (s := pastEdge (release s)) he (hrest _ rfl) rfl
      exact ⟨_, (run_succ (step_held hr hh)).trans hrun, by simp [sameRegisters]⟩

/-- Settles O19: one command by `commandResult_faulted`, and the runs by induction on the number of edges. -/
theorem afterAFaultNothingChanges : Obligations.AfterAFaultNothingChanges := by
  refine ⟨fun i s he => ⟨?_, valid_faulted he⟩, fun k s he hn => run_faulted he hn,
    fun k s he hn hh => run_faulted_ready he hn hh⟩
  rw [exec_eq, commandResult_faulted he]

end Sys2Proof.Proofs
end

section
/-! PROOFS. The decoder and the encoder are inverse, and the decoder reads only the bits that a format names
(30_encoding.md R72, R76, R78). -/

namespace Sys2Proof.Proofs

open Sys2Proof Sys2Proof.Machine Sys2Proof.Laws

/-! ### Decoding an encoded command (R76) -/

/-- Settles O1: the payload packed by the encoder holds the operands that the decoder reads. -/
theorem decodeOfEncodeIsTheCommand : Obligations.DecodeOfEncodeIsTheCommand := by
  intro i hwf
  cases i with
  | nop => exact decode_nop _
  | init32 seed => rw [encode, opcodeOf, payloadOf, decode_init32, seedField_setWidth]
  | blk32 bytes =>
    have hl : bytes.length = 4 := by simpa [Instr.wf] using hwf
    rw [encode, opcodeOf, payloadOf, decode_blk32, lanes_packLanes hl (by decide)]
  | tail32 bytes =>
    have hl : bytes.length ≤ 3 := by simpa [Instr.wf] using hwf
    rw [encode, opcodeOf, payloadOf, decode_tail32 hl, lanes_packLanes rfl (by omega)]
  | fin32 => exact decode_fin32 _
  | init128 seed => rw [encode, opcodeOf, payloadOf, decode_init128, seedField_setWidth]
  | blk128 bytes =>
    have hl : bytes.length = 16 := by simpa [Instr.wf] using hwf
    rw [encode, opcodeOf, payloadOf, decode_blk128, lanes_packLanes hl (by decide)]
  | tail128 bytes =>
    have hl : bytes.length ≤ 15 := by simpa [Instr.wf] using hwf
    rw [encode, opcodeOf, payloadOf, decode_tail128 hl, lanes_packLanes rfl (by omega)]
  | fin128 => exact decode_fin128 _

/-! ### Encoding a decoded command (R76, R78) -/

/-- Lanes read from a payload and packed again are its low bits. -/
theorem packLanes_lanes_toNat {n : Nat} (hn : n ≤ 16) (d : U128) :
    (packLanes (lanes n d)).toNat = d.toNat % 2 ^ (8 * n) := by
  rw [packLanes_toNat ((lanes_length n d).trans_le hn), leNat_lanes]

/-- A seed read from a payload and put back is its low 32 bits. -/
theorem setWidth_seedField_toNat (d : U128) : ((seedField d).setWidth 128).toNat = d.toNat % 2 ^ 32 := by
  simp only [seedField, BitVec.toNat_setWidth, BitVec.extractLsb'_toNat, Nat.shiftRight_zero]
  omega

/-- Settles O2: an operand read from the payload and packed again is the payload on its own bits. -/
theorem encodeOfDecodeKeepsTheUsedBits : Obligations.EncodeOfDecodeKeepsTheUsedBits := by
  intro b i hd
  refine ⟨decode_wf hd, opcodeOf_decode hd, ?_⟩
  obtain ⟨_, rfl⟩ | ⟨_, rfl⟩ | ⟨_, rfl⟩ | ⟨n, hn, _, rfl⟩ | ⟨_, rfl⟩ | ⟨_, rfl⟩ | ⟨_, rfl⟩ | ⟨n, hn, _, rfl⟩ |
    ⟨_, rfl⟩ := decode_cases hd
  · exact (Nat.mod_one _).symm
  · exact setWidth_seedField_toNat _
  · exact packLanes_lanes_toNat (by decide) _
  · simp only [lanes_length]
    exact packLanes_lanes_toNat (by omega) _
  · exact (Nat.mod_one _).symm
  · exact setWidth_seedField_toNat _
  · exact packLanes_lanes_toNat (by decide) _
  · simp only [lanes_length]
    exact packLanes_lanes_toNat (by omega) _
  · exact (Nat.mod_one _).symm

/-! ### The bits that count (R72) -/

/-- A beat's opcode byte and what it decodes to decide all that becomes of it. -/
theorem acceptBeat_congr {op : Byte} {d d' : U128} (h : decode ⟨op, d⟩ = decode ⟨op, d'⟩) (s : State) :
    acceptBeat ⟨op, d⟩ s = acceptBeat ⟨op, d'⟩ s := by
  simp only [acceptBeat, h]

/-- Settles O3: the operands of the selected command are read from the bits on which the payloads agree. -/
theorem unusedPayloadBitsAreIgnored : Obligations.UnusedPayloadBitsAreIgnored := by
  intro op d d' s hword hblock htail32 htail128
  have hop := decodeOp_selects op
  apply acceptBeat_congr
  simp only [decode]
  cases hsel : decodeOp op <;> simp only [hsel, selects, withOperands] at hop ⊢
  case init32 => rw [seedField_congr (hword (.inl hop))]
  case blk32 => rw [lanes_congr (n := 4) (hword (.inr (.inl hop)))]
  case tail32 n => rw [lanes_congr (htail32 n hop.1 hop.2)]
  case init128 => rw [seedField_congr (hword (.inr (.inr hop)))]
  case blk128 => rw [hblock hop]
  case tail128 n => rw [lanes_congr (htail128 n hop.1 hop.2)]

/-- Settles O6: the ten beats are evaluated. -/
theorem sampleBeatsDecode : Obligations.SampleBeatsDecode := by
  unfold Obligations.SampleBeatsDecode
  decide

end Sys2Proof.Proofs
end

section
/-! PROOFS. One edge of the block: the command it runs, reset, and the edges at which nothing is accepted
(60_exceptions.md R223, 70_reset_and_hazards.md R240, R244, R245). -/

namespace Sys2Proof.Proofs

open Sys2Proof Sys2Proof.Machine Sys2Proof.Laws

/-! ### Commands and quiet edges -/

/-- Settles O12: `exec` and `step` are equations with a next state. -/
theorem noStepStopsTheBlock : Obligations.NoStepStopsTheBlock := by
  refine ⟨fun i s => ⟨_, exec_eq i s⟩, fun s => ?_⟩
  cases hr : nextRst s with
  | true => exact ⟨_, step_reset hr⟩
  | false =>
    cases ha : accepted s with
    | none => exact ⟨_, step_waits hr ha⟩
    | some b => exact ⟨_, step_accepts ha⟩

/-- Settles O7: the edge accepts the beat, and a decoded beat has its command's result. -/
theorem stepRunsTheDecodedCommand : Obligations.StepRunsTheDecodedCommand := by
  intro s b rest i hp hr hh hd
  have hb : beatResult b s = commandResult i s := by simp only [beatResult, hd]
  have hin : ({ s with rst := s.rst.tail, port := rest } : State) = withInput s.rst.tail rest s := rfl
  rw [step_accepts (accepted_of hp hr hh), hb, hin, exec_eq, commandResult_withInput, pastBeat, commandResult_rst,
    commandResult_port, hp, List.tail_cons]

/-- Settles O11: with no beat presented nothing is accepted, and the edge only releases the block. -/
theorem nothingPresentedChangesNothing : Obligations.NothingPresentedChangesNothing := by
  refine ⟨fun s values rest hp hr => ?_, fun s hp hr => ?_⟩
  · rw [step_waits hr (by simp [accepted, hp]), pastEdge, release_port, hp]
    rfl
  · rw [step_waits hr (by simp [accepted, hp]), pastEdge, release_port, hp]
    simp [release, withInput, afterWaiting, hp]

/-! ### Reset and the edge that ends it (R240) -/

/-- What an edge with `rst` 1 leaves, as a record. -/
theorem pastEdge_resetRegisters_eq (s : State) :
    pastEdge (resetRegisters s) =
      { State.reset with held := true, rst := s.rst.tail, port := afterWaiting s.port } := (rfl)

/-- What a reset edge and the edge that ends the holding leave, as a record. -/
theorem pastEdge_release_pastEdge_resetRegisters_eq (s : State) :
    pastEdge (release (pastEdge (resetRegisters s))) =
      { State.reset with rst := s.rst.tail.tail, port := afterWaiting (afterWaiting s.port) } := (rfl)

/-- A block is not ready while `rst` is 1. -/
theorem cmdReady_reset {s : State} (hr : nextRst s = true) : cmdReady s = false := by
  simp [cmdReady, hr]

/-- A held block is not ready. -/
theorem cmdReady_held {s : State} (hh : s.held = true) : cmdReady s = false := by
  simp [cmdReady, hh]

/-- A clocked port whose block is not ready is not ready. -/
theorem ready_eq_false {c : Clocked} (h : cmdReady c.regs = false) : c.ready = false := by
  simp [Clocked.ready, h]

/-- A reset edge of the clocked port abandons the command in progress. -/
theorem clockEdge_reset {c : Clocked} (hr : nextRst c.regs = true) :
    clockEdge c = { c with regs := pastEdge (resetRegisters c.regs), busy := none } := by
  simp [clockEdge, hr]

/-- An edge out of reset that finds no command in progress and accepts nothing only releases the block. -/
theorem clockEdge_waits {c : Clocked} (hb : c.busy = none) (hr : nextRst c.regs = false)
    (ha : accepted c.regs = none) : clockEdge c = { c with regs := pastEdge (release c.regs) } := by
  simp [clockEdge, hr, hb, ha]

/-- The edge that ends the holding of the clocked port accepts nothing. -/
theorem clockEdge_held {c : Clocked} (hh : c.regs.held = true) (hb : c.busy = none) (hr : nextRst c.regs = false) :
    clockEdge c = { c with regs := pastEdge (release c.regs) } :=
  clockEdge_waits hb hr (accepted_none (cmdReady_held hh))

/-- A reset edge and the edge that ends the holding, on the clocked port. -/
theorem clockEdges_two_reset {c : Clocked} (hr : nextRst c.regs = true) (hr' : c.regs.rst.tail.headD false = false) :
    clockEdges 2 c = { c with regs := pastEdge (release (pastEdge (resetRegisters c.regs))), busy := none } := by
  rw [clockEdges, clockEdges, clockEdges, clockEdge_reset hr]
  exact clockEdge_held rfl rfl hr'

/-! ### What a step leaves out of reset -/

/-- The phase of E32 comes to IDLE by no effect. -/
theorem phaseAfter32_eq_idle {i : Instr} {p : Phase} (h : phaseAfter32 i p = .idle) : p = .idle := by
  revert h
  cases i <;> simp [phaseAfter32]

/-- The phase of E128 comes to IDLE by no effect. -/
theorem phaseAfter128_eq_idle {i : Instr} {p : Phase} (h : phaseAfter128 i p = .idle) : p = .idle := by
  revert h
  cases i <;> simp [phaseAfter128]

/-- Opcode byte 0 is not reserved. -/
theorem op_ne_zero_of_reserved {b : Beat} {w : Reserved} (h : decode b = .reserved w) : b.op ≠ 0 := by
  intro h0
  have hrow := (reserved_iff b).mp ⟨w, h⟩
  rw [h0] at hrow
  exact absurd hrow (by decide)

/-- A fault register that is set, or a phase that is not IDLE, in the first state is so in the second. -/
def KeepsFaultsAndPhases (s t : State) : Prop :=
  (s.err = true → t.err = true) ∧ (s.ecode ≠ .noFault → t.ecode ≠ .noFault) ∧ (s.eop ≠ 0 → t.eop ≠ 0) ∧
    (s.ph32 ≠ .idle → t.ph32 ≠ .idle) ∧ (s.ph128 ≠ .idle → t.ph128 ≠ .idle)

/-- No accepted beat clears a fault register or moves a phase to IDLE. -/
theorem beatResult_keepsFaultsAndPhases (b : Beat) (s : State) : KeepsFaultsAndPhases s (beatResult b s) := by
  obtain ⟨-, hr⟩ | ⟨-, ⟨w, hd⟩, hr⟩ | ⟨-, ⟨i, hd, ho⟩, hr⟩ | ⟨-, i, -, -, hr⟩ := beat_cases b s
  · rw [hr]
    exact ⟨id, id, id, id, id⟩
  · rw [hr]
    exact ⟨fun _ => rfl, fun _ => nofun, fun _ => op_ne_zero_of_reserved hd, id, id⟩
  · rw [hr]
    exact ⟨fun _ => rfl, fun _ => nofun, fun _ => op_ne_zero_of_out hd ho, id, id⟩
  · rw [hr]
    refine ⟨(effect_err i s).trans, by rw [effect_ecode]; exact id, by rw [effect_eop]; exact id, mt fun h => ?_,
      mt fun h => ?_⟩
    · exact phaseAfter32_eq_idle ((effect_ph32_eq i s).symm.trans h)
    · exact phaseAfter128_eq_idle ((effect_ph128_eq i s).symm.trans h)

/-- No step out of reset clears a fault register or moves a phase to IDLE. -/
theorem step_keepsFaultsAndPhases {s t : State} (h : step s = .next t) (hr : nextRst s = false) :
    KeepsFaultsAndPhases s t := by
  obtain ⟨hr', -⟩ | ⟨-, -, rfl⟩ | ⟨-, b, -, rfl⟩ := step_cases h
  · cases hr.symm.trans hr'
  · exact ⟨id, id, id, id, id⟩
  · exact beatResult_keepsFaultsAndPhases b s

/-- Settles O10: a reset edge writes the reset values and the edge after it releases the block, by step and by clock;
every other step keeps the faults and the phases. -/
theorem resetFromEveryState : Obligations.ResetFromEveryState := by
  refine ⟨fun s hr => ⟨accepted_none (cmdReady_reset hr), ?_⟩, fun s hr hr' => ?_,
    fun s b rest hh hr hp => accepted_of hp hr hh, fun c hr => ⟨ready_eq_false (cmdReady_reset hr), ?_, fun hr' => ?_⟩,
    fun c hh hb hr => by simp [Clocked.ready, cmdReady, hh, hb, hr], fun s t h hclears => ?_, rfl⟩
  · rw [step_reset hr, pastEdge_resetRegisters_eq]
  · have hheld : step (pastEdge (resetRegisters s)) = .next (pastEdge (release (pastEdge (resetRegisters s)))) :=
      step_held hr' rfl
    rw [run_succ (step_reset hr), run_succ hheld, run_zero, pastEdge_release_pastEdge_resetRegisters_eq]
  · rw [clockEdge_reset hr, pastEdge_resetRegisters_eq]
  · rw [clockEdges_two_reset hr hr', pastEdge_release_pastEdge_resetRegisters_eq]
  · by_contra hr
    obtain ⟨herr, hecode, heop, hph32, hph128⟩ := step_keepsFaultsAndPhases h (Bool.eq_false_of_not_eq_true hr)
    obtain ⟨hs, ht⟩ | ⟨hs, ht⟩ | ⟨hs, ht⟩ | ⟨hs, ht⟩ | ⟨hs, ht⟩ := hclears
    · exact Bool.false_ne_true (ht.symm.trans (herr hs))
    · exact hecode hs ht
    · exact heop hs ht
    · exact hph32 hs ht
    · exact hph128 hs ht

/-- A step leaves the block held if and only if it is a reset edge. -/
theorem step_held_iff {s t : State} (h : step s = .next t) : t.held = true ↔ nextRst s = true := by
  obtain ⟨hr, rfl⟩ | ⟨hr, -, rfl⟩ | ⟨hr, b, ha, rfl⟩ := step_cases h
  · exact iff_of_true rfl hr
  · exact iff_of_false nofun (by simp [hr])
  · have hh := (cmdReady_true (accepted_some ha).1).2
    exact iff_of_false (by simp [hh]) (by simp [hr])

end Sys2Proof.Proofs
end

section
/-! PROOFS. The invariant of the block (10_state.md R22, R23, R26 to R30, 60_exceptions.md R211, R218). -/

namespace Sys2Proof.Proofs

open Sys2Proof Sys2Proof.Machine Sys2Proof.Safety Sys2Proof.Laws

/-! ### The invariant under the edge itself -/

/-- The invariant does not look at what the host will do. -/
theorem inv_withInput {s : State} (h : Inv s) (r : List Bool) (p : List Move) : Inv (withInput r p s) := by
  obtain ⟨hfault, he32, he128, hheld⟩ := h
  refine ⟨hfault, he32, he128, fun hh => ?_⟩
  conv_lhs => rw [hheld hh]
  rfl

/-- A block just reset has the invariant. -/
theorem inv_resetRegisters (s : State) : Inv (resetRegisters s) :=
  ⟨⟨fun _ => ⟨rfl, rfl⟩, nofun⟩, ⟨fun _ => ⟨rfl, rfl⟩, nofun⟩, ⟨fun _ => ⟨rfl, rfl, rfl⟩, nofun⟩, fun _ => rfl⟩

/-- A released block keeps the invariant of its registers. -/
theorem inv_release {s : State} (h : Inv s) : Inv (release s) := by
  obtain ⟨hfault, he32, he128, -⟩ := h
  exact ⟨hfault, he32, he128, nofun⟩

/-- Settles O14: the reset state is a block just reset and then released. -/
theorem invariantHoldsAtReset : Obligations.InvariantHoldsAtReset :=
  inv_release (inv_resetRegisters State.reset)

/-! ### The fault record (R28 to R30, R211) -/

/-- A beat that decodes to no command has a reserved opcode byte, whatever its payload. -/
theorem isReserved_of_decode {b : Beat} {w : Reserved} (h : decode b = .reserved w) : isReserved b.op = true := by
  obtain ⟨w', hw'⟩ := (reserved_iff ⟨b.op, 0⟩).mpr ((reserved_iff b).mp ⟨w, h⟩)
  rw [isReserved, hw']

/-- A beat whose command is out of order has an opcode byte that is, whatever its payload. -/
theorem isOutOfOrder_of_decode {b : Beat} {i : Instr} {p q : Phase} (h : decode b = .command i)
    (ho : inOrder i p q = false) : isOutOfOrder b.op p q = true := by
  obtain ⟨j, hj, hij⟩ := inOrder_data (d' := 0) h p q
  rw [isOutOfOrder, hj]
  exact congrArg Bool.not (hij.trans ho)

/-- A fault that is raised by its own opcode byte is a true record, and the engines stay coherent. -/
theorem inv_raiseFault {s : State} {c : Cause} {op : Byte} (h : Inv s) (hs : s.held = false)
    (hc : (c = .illegalOp ∧ isReserved op = true) ∨ (c = .sequence ∧ isOutOfOrder op s.ph32 s.ph128 = true)) :
    Inv (raiseFault c op s) := by
  obtain ⟨-, he32, he128, -⟩ := h
  exact ⟨⟨nofun, fun _ => hc⟩, he32, he128, by simp [heldInReset, hs]⟩

/-! ### The engines (R22, R23, R26, R27) -/

/-- A length of whole blocks stays one with a block more, also where it wraps. -/
theorem add_ofNat_toNat_mod {w k : Nat} (len : BitVec w) (hk : k ∣ 2 ^ w) (h : len.toNat % k = 0) :
    (len + BitVec.ofNat w k).toNat % k = 0 := by
  rw [BitVec.toNat_add, BitVec.toNat_ofNat, Nat.mod_mod_of_dvd _ hk, Nat.add_mod, h, Nat.mod_mod_of_dvd _ hk,
    Nat.mod_self, Nat.add_zero, Nat.zero_mod]

/-- E32 in ABSORB with a length of whole blocks is coherent. -/
theorem e32Coherent_absorb {len : U32} (hl : len.toNat % 4 = 0) (h : U32) (s : State) :
    e32Coherent (writeE32 h len .absorb s) :=
  ⟨nofun, fun _ => hl⟩

/-- E32 in TAILED or DONE is coherent. -/
theorem e32Coherent_late {p : Phase} (hp : p = .tailed ∨ p = .done) (h len : U32) (s : State) :
    e32Coherent (writeE32 h len p s) := by
  obtain rfl | rfl := hp <;> exact ⟨nofun, nofun⟩

/-- A command that is not of E32 keeps E32 coherent. -/
theorem e32Coherent_effect_other {i : Instr} {s : State} (hi : isE32 i = false) (h : e32Coherent s) :
    e32Coherent (effect i s) := by
  rwa [e32Coherent, effect_h32 s hi, effect_len32 s hi, effect_ph32 s hi]

/-- A command in order keeps E32 coherent. -/
theorem e32Coherent_effect {i : Instr} {s : State} (h : e32Coherent s) (ho : inOrder i s.ph32 s.ph128 = true) :
    e32Coherent (effect i s) := by
  cases i with
  | init32 seed => exact e32Coherent_absorb rfl seed s
  | blk32 bytes =>
    have hp : s.ph32 = .absorb := absorbs_iff.mp ho
    rw [effect_blk32, hp]
    exact e32Coherent_absorb (add_ofNat_toNat_mod s.len32 (by decide) (h.2 hp)) _ s
  | tail32 bytes => exact e32Coherent_late (.inl rfl) _ _ s
  | fin32 => exact e32Coherent_late (.inr rfl) _ _ s
  | nop | init128 _ | blk128 _ | tail128 _ | fin128 => exact e32Coherent_effect_other rfl h

/-- E128 in ABSORB with a length of whole blocks is coherent. -/
theorem e128Coherent_absorb {len : U64} (hl : len.toNat % 16 = 0) (h : U64 × U64) (s : State) :
    e128Coherent (writeE128 h len .absorb s) :=
  ⟨nofun, fun _ => hl⟩

/-- E128 in TAILED or DONE is coherent. -/
theorem e128Coherent_late {p : Phase} (hp : p = .tailed ∨ p = .done) (h : U64 × U64) (len : U64) (s : State) :
    e128Coherent (writeE128 h len p s) := by
  obtain rfl | rfl := hp <;> exact ⟨nofun, nofun⟩

/-- A command that is not of E128 keeps E128 coherent. -/
theorem e128Coherent_effect_other {i : Instr} {s : State} (hi : isE128 i = false) (h : e128Coherent s) :
    e128Coherent (effect i s) := by
  rwa [e128Coherent, effect_h1 s hi, effect_h2 s hi, effect_len128 s hi, effect_ph128 s hi]

/-- A command in order keeps E128 coherent. -/
theorem e128Coherent_effect {i : Instr} {s : State} (h : e128Coherent s) (ho : inOrder i s.ph32 s.ph128 = true) :
    e128Coherent (effect i s) := by
  cases i with
  | init128 seed => exact e128Coherent_absorb rfl _ s
  | blk128 bytes =>
    have hp : s.ph128 = .absorb := absorbs_iff.mp ho
    rw [effect_blk128, hp]
    exact e128Coherent_absorb (add_ofNat_toNat_mod s.len128 (by decide) (h.2 hp)) _ s
  | tail128 bytes => exact e128Coherent_late (.inl rfl) _ _ s
  | fin128 => exact e128Coherent_late (.inr rfl) _ _ s
  | nop | init32 _ | blk32 _ | tail32 _ | fin32 => exact e128Coherent_effect_other rfl h

/-- A command's effect leaves an empty fault record empty. -/
theorem faultRecordTrue_effect {s : State} (h : faultRecordTrue s) (he : s.err = false) (i : Instr) :
    faultRecordTrue (effect i s) := by
  refine ⟨fun _ => ?_, fun hf => ?_⟩
  · rw [effect_ecode, effect_eop]
    exact h.1 he
  · rw [effect_err, he] at hf
    cases hf

/-! ### A beat and a step -/

/-- A beat accepted by a block that is not held keeps the invariant. -/
theorem inv_beatResult {s : State} (h : Inv s) (hs : s.held = false) (b : Beat) : Inv (beatResult b s) := by
  obtain ⟨-, hr⟩ | ⟨-, ⟨w, hd⟩, hr⟩ | ⟨-, ⟨i, hd, ho⟩, hr⟩ | ⟨he, i, -, ho, hr⟩ := beat_cases b s
  · rwa [hr]
  · rw [hr]
    exact inv_raiseFault h hs (.inl ⟨rfl, isReserved_of_decode hd⟩)
  · rw [hr]
    exact inv_raiseFault h hs (.inr ⟨rfl, isOutOfOrder_of_decode hd ho⟩)
  · rw [hr]
    obtain ⟨hfault, he32, he128, -⟩ := h
    exact ⟨faultRecordTrue_effect hfault he i, e32Coherent_effect he32 ho, e128Coherent_effect he128 ho,
      by simp [heldInReset, hs]⟩

/-- Settles O15: an edge resets the block, releases it, or accepts a beat when it is not held. -/
theorem invariantIsKeptByEveryStep : Obligations.InvariantIsKeptByEveryStep := by
  intro s t h hstep
  obtain ⟨-, rfl⟩ | ⟨-, -, rfl⟩ | ⟨-, b, ha, rfl⟩ := step_cases hstep
  · exact inv_withInput (inv_resetRegisters s) _ _
  · exact inv_withInput (inv_release h) _ _
  · exact inv_withInput (inv_beatResult h (cmdReady_true (accepted_some ha).1).2 b) _ _

end Sys2Proof.Proofs
end

section
/-! PROOFS. The frame of the commands and the independence of the two engines (10_state.md R37, R40), and the digests on
the output ports (R32, R34, 70_reset_and_hazards.md R246). -/

namespace Sys2Proof.Proofs

open Sys2Proof Sys2Proof.Machine Sys2Proof.Safety Sys2Proof.Laws

/-! ### The frame (R40) -/

/-- Settles O29: a command is discarded, faults, or has its effect, and each of the three leaves its part. -/
theorem commandsLeaveTheRestUnchanged : Obligations.CommandsLeaveTheRestUnchanged := by
  intro i s t h
  obtain ⟨he, rfl⟩ | ⟨he, -, rfl⟩ | ⟨he, -, rfl⟩ := exec_cases h
  · simp [he]
  · simp [he]
  · refine ⟨effect_held i s, effect_rst i s, effect_port i s, by simp [he], by simp [he], by simp [he],
      fun hi => ⟨effect_h32 s hi, effect_len32 s hi, effect_ph32 s hi⟩,
      fun hi => ⟨effect_h1 s hi, effect_h2 s hi, effect_len128 s hi, effect_ph128 s hi⟩, ?_, ?_, ?_, ?_⟩
    · rintro bytes rfl
      rw [effect_blk32, writeE32_ph32]
    · rintro rfl
      rw [effect_fin32, writeE32_len32]
    · rintro bytes rfl
      rw [effect_blk128, writeE128_ph128]
    · rintro rfl
      rw [effect_fin128, writeE128_len128]

/-! ### Two states that agree on one engine (R37) -/

/-- The registers of E32 are the same. -/
def AgreeOnE32 (s t : State) : Prop := s.h32 = t.h32 ∧ s.len32 = t.len32 ∧ s.ph32 = t.ph32

/-- The registers of E128 are the same. -/
def AgreeOnE128 (s t : State) : Prop := s.h1 = t.h1 ∧ s.h2 = t.h2 ∧ s.len128 = t.len128 ∧ s.ph128 = t.ph128

/-- An effect of no command of E128 reads no register but those of E32. -/
theorem agreeOnE32_effect {i : Instr} (hi : isE128 i = false) {s t : State} (h : AgreeOnE32 s t) :
    AgreeOnE32 (effect i s) (effect i t) := by
  obtain ⟨hh, hlen, hph⟩ := h
  revert hi
  cases i <;> simp [isE128, AgreeOnE32, hh, hlen, hph]

/-- An effect of no command of E32 reads no register but those of E128. -/
theorem agreeOnE128_effect {i : Instr} (hi : isE32 i = false) {s t : State} (h : AgreeOnE128 s t) :
    AgreeOnE128 (effect i s) (effect i t) := by
  obtain ⟨hh1, hh2, hlen, hph⟩ := h
  revert hi
  cases i <;> simp [isE32, AgreeOnE128, hh1, hh2, hlen, hph]

/-- An effect of no command of E32 leaves the agreement on E32. -/
theorem agreeOnE32_effect_left {i : Instr} (hi : isE32 i = false) {s t : State} (h : AgreeOnE32 s t) :
    AgreeOnE32 (effect i s) t := by
  rwa [AgreeOnE32, effect_h32 s hi, effect_len32 s hi, effect_ph32 s hi]

/-- An effect of no command of E128 leaves the agreement on E128. -/
theorem agreeOnE128_effect_left {i : Instr} (hi : isE128 i = false) {s t : State} (h : AgreeOnE128 s t) :
    AgreeOnE128 (effect i s) t := by
  rwa [AgreeOnE128, effect_h1 s hi, effect_h2 s hi, effect_len128 s hi, effect_ph128 s hi]

/-- Whether a command that is not of E128 is in order is decided by E32. -/
theorem inOrder_of_agreeOnE32 {i : Instr} (hi : isE128 i = false) {s t : State} (h : AgreeOnE32 s t) :
    inOrder i s.ph32 s.ph128 = inOrder i t.ph32 t.ph128 := by
  obtain ⟨-, -, hph⟩ := h
  rw [hph, inOrder_ph128 hi]

/-- Whether a command that is not of E32 is in order is decided by E128. -/
theorem inOrder_of_agreeOnE128 {i : Instr} (hi : isE32 i = false) {s t : State} (h : AgreeOnE128 s t) :
    inOrder i s.ph32 s.ph128 = inOrder i t.ph32 t.ph128 := by
  obtain ⟨-, -, -, hph⟩ := h
  rw [hph, inOrder_ph32 hi]

/-- The fault registers are the same. -/
def AgreeOnFaults (s t : State) : Prop := s.err = t.err ∧ s.ecode = t.ecode ∧ s.eop = t.eop

/-- A command keeps an agreement of two states that agree on the fault registers, and these, where its effect and a
fault keep it and the phases let the command through in both states or in neither. -/
theorem commandResult_agree {R : State → State → Prop} {i : Instr} {s t : State}
    (heff : R (effect i s) (effect i t))
    (hfault : R (raiseFault .sequence (opcodeOf i) s) (raiseFault .sequence (opcodeOf i) t))
    (ho : inOrder i s.ph32 s.ph128 = inOrder i t.ph32 t.ph128) (hf : AgreeOnFaults s t) (h : R s t) :
    R (commandResult i s) (commandResult i t) ∧ AgreeOnFaults (commandResult i s) (commandResult i t) := by
  have ⟨he, hecode, heop⟩ := hf
  simp only [commandResult, ← he, ← ho]
  cases s.err with
  | true => exact ⟨h, hf⟩
  | false =>
    cases inOrder i s.ph32 s.ph128 with
    | true => exact ⟨heff, by simp [AgreeOnFaults, he, hecode, heop]⟩
    | false => exact ⟨hfault, rfl, rfl, rfl⟩

/-- Settles O30: the effect, the fault and the phase check of a command read its own engine only. -/
theorem enginesReadOnlyTheirOwnRegisters : Obligations.EnginesReadOnlyTheirOwnRegisters := by
  intro i s s' t t' h h' he hecode heop
  rw [exec_eq, Host.Outcome.next.injEq] at h h'
  subst h h'
  refine ⟨fun hi hh hlen hph => ?_, fun hi hh1 hh2 hlen hph => ?_⟩
  · have hs : AgreeOnE32 s s' := ⟨hh, hlen, hph⟩
    obtain ⟨⟨ht, htlen, htph⟩, hft⟩ := commandResult_agree (R := AgreeOnE32) (agreeOnE32_effect hi hs) hs
      (inOrder_of_agreeOnE32 hi hs) ⟨he, hecode, heop⟩ hs
    exact ⟨ht, htlen, htph, hft⟩
  · have hs : AgreeOnE128 s s' := ⟨hh1, hh2, hlen, hph⟩
    obtain ⟨⟨ht1, ht2, htlen, htph⟩, hft⟩ := commandResult_agree (R := AgreeOnE128) (agreeOnE128_effect hi hs) hs
      (inOrder_of_agreeOnE128 hi hs) ⟨he, hecode, heop⟩ hs
    exact ⟨ht1, ht2, htlen, htph, hft⟩

/-! ### Interleaving (R37) -/

/-- Of a sequence that ends with `ERR` clear, the commands of one kind alone keep an agreement that they keep one by one
and that no other command breaks. -/
theorem execAll_filter_agree {R : State → State → Prop} {p : Instr → Bool}
    (heff : ∀ {i s t}, p i = true → R s t → R (effect i s) (effect i t))
    (ho : ∀ {i s t}, p i = true → R s t → inOrder i s.ph32 s.ph128 = inOrder i t.ph32 t.ph128)
    (hskip : ∀ {i s t}, p i = false → R s t → R (effect i s) t)
    {cs : List Instr} {s t u : State} (h : execAll cs s = .next t) (ht : t.err = false) (hu : u.err = false)
    (hsu : R s u) : ∃ v, execAll (cs.filter p) u = .next v ∧ v.err = false ∧ R t v := by
  induction cs generalizing s u with
  | nil =>
    cases h
    exact ⟨u, rfl, hu, hsu⟩
  | cons i rest ih =>
    obtain ⟨-, hos, hrest⟩ := execAll_cons_clear h ht
    cases hi : p i with
    | true =>
      rw [List.filter_cons_of_pos hi, execAll_cons_inOrder hu ((ho hi hsu).symm.trans hos)]
      exact ih hrest ((effect_err i u).trans hu) (heff hi hsu)
    | false =>
      rw [List.filter_cons_of_neg (by simp [hi])]
      exact ih hrest hu (hskip hi hsu)

/-- Settles O31: an engine's own commands alone keep the agreement on its registers with the whole sequence. -/
theorem interleavingDoesNotMatter : Obligations.InterleavingDoesNotMatter := by
  intro cs s t h ht
  have hs := err_of_execAll h ht
  constructor
  · obtain ⟨u, hrun, hu, hh, hlen, hph⟩ := execAll_filter_agree (R := AgreeOnE32) (p := isE32)
      (fun hi => agreeOnE32_effect (isE128_of_isE32 _ hi)) (fun hi => inOrder_of_agreeOnE32 (isE128_of_isE32 _ hi))
      (fun hi => agreeOnE32_effect_left hi) h ht hs ⟨rfl, rfl, rfl⟩
    exact ⟨u, hrun, hu, hh.symm, hlen.symm, hph.symm⟩
  · obtain ⟨u, hrun, hu, hh1, hh2, hlen, hph⟩ := execAll_filter_agree (R := AgreeOnE128) (p := isE128)
      (fun hi => agreeOnE128_effect (isE32_of_isE128 _ hi)) (fun hi => inOrder_of_agreeOnE128 (isE32_of_isE128 _ hi))
      (fun hi => agreeOnE128_effect_left hi) h ht hs ⟨rfl, rfl, rfl, rfl⟩
    exact ⟨u, hrun, hu, hh1.symm, hh2.symm, hlen.symm, hph.symm⟩

/-! ### The digests on the ports (R32, R34, R246) -/

/-- The valid flag of E32 is phase DONE without a fault. -/
theorem dig32Valid_iff (s : State) : dig32Valid s = true ↔ finished32 s := by
  simp [dig32Valid, finished32]

/-- The valid flag of E128 is phase DONE without a fault. -/
theorem dig128Valid_iff (s : State) : dig128Valid s = true ↔ finished128 s := by
  simp [dig128Valid, finished128]

/-- Settles O41: `dig128` is a concatenation, read as a sum and in its halves. -/
theorem portsShowTheDigests : Obligations.PortsShowTheDigests := by
  refine fun s => ⟨rfl, rfl, rfl, append_toNat s.h1 s.h2, ?_, ?_, dig32Valid_iff s, dig128Valid_iff s⟩
  · exact BitVec.extractLsb'_append_eq_left
  · exact BitVec.extractLsb'_append_eq_right

/-- In DONE the only command of E32 in order is `INIT32`. -/
theorem inOrder_done32 {i : Instr} {q : Phase} (ho : inOrder i .done q = true) (hi : ∀ seed, i ≠ .init32 seed) :
    isE32 i = false := by
  revert ho hi
  cases i <;> simp [inOrder, absorbs, finishes, isE32]

/-- In DONE the only command of E128 in order is `INIT128`. -/
theorem inOrder_done128 {i : Instr} {p : Phase} (ho : inOrder i p .done = true) (hi : ∀ seed, i ≠ .init128 seed) :
    isE128 i = false := by
  revert ho hi
  cases i <;> simp [inOrder, absorbs, finishes, isE128]

/-- A step out of reset that leaves `ERR` clear leaves every register, or accepts a beat whose command has its
effect. -/
theorem step_clear {s t : State} (h : step s = .next t) (hr : nextRst s = false) (ht : t.err = false) :
    t = pastEdge (release s) ∨
    ∃ b i, accepted s = some b ∧ decode b = .command i ∧ inOrder i s.ph32 s.ph128 = true ∧
      t = pastBeat (effect i s) := by
  obtain ⟨hr', -⟩ | ⟨-, -, rfl⟩ | ⟨-, b, ha, rfl⟩ := step_cases h
  · cases hr.symm.trans hr'
  · exact .inl rfl
  · obtain ⟨he, hb⟩ | ⟨-, -, hb⟩ | ⟨-, -, hb⟩ | ⟨-, i, hd, ho, hb⟩ := beat_cases b s
    · rw [hb, pastBeat_err, he] at ht
      cases ht
    · rw [hb] at ht
      cases ht
    · rw [hb] at ht
      cases ht
    · exact .inr ⟨b, i, ha, hd, ho, by rw [hb]⟩

/-- An accepted beat has the opcode byte of the command it decodes to. -/
theorem accepted_opcodeOf {s : State} {b : Beat} {i : Instr} (ha : accepted s = some b) (hd : decode b = .command i) :
    accepted s = some { op := opcodeOf i, data := b.data } := by
  rw [ha, opcodeOf_decode hd]

/-- Settles O42: in DONE every command in order but the `INIT` of the engine leaves the engine's registers. -/
theorem validDigestsStay : Obligations.ValidDigestsStay := by
  intro s t h hr ht
  constructor
  · intro hv hinit
    obtain ⟨hph, he⟩ := (dig32Valid_iff s).mp hv
    obtain rfl | ⟨b, i, ha, hd, ho, rfl⟩ := step_clear h hr ht
    · exact ⟨hv, rfl⟩
    · have hi : isE32 i = false := by
        refine inOrder_done32 (hph ▸ ho) ?_
        rintro seed rfl
        exact hinit b.data (accepted_opcodeOf ha hd)
      exact ⟨(dig32Valid_iff _).mpr ⟨(effect_ph32 s hi).trans hph, (effect_err i s).trans he⟩, effect_h32 s hi⟩
  · intro hv hinit
    obtain ⟨hph, he⟩ := (dig128Valid_iff s).mp hv
    obtain rfl | ⟨b, i, ha, hd, ho, rfl⟩ := step_clear h hr ht
    · exact ⟨hv, rfl, rfl, rfl⟩
    · have hi : isE128 i = false := by
        refine inOrder_done128 (hph ▸ ho) ?_
        rintro seed rfl
        exact hinit b.data (accepted_opcodeOf ha hd)
      have hh1 : (effect i s).h1 = s.h1 := effect_h1 s hi
      have hh2 : (effect i s).h2 = s.h2 := effect_h2 s hi
      exact ⟨(dig128Valid_iff _).mpr ⟨(effect_ph128 s hi).trans hph, (effect_err i s).trans he⟩,
        congrArg₂ (· ++ ·) hh1 hh2, hh1, hh2⟩

end Sys2Proof.Proofs
end

section
/-! PROOFS. The host's side: the split of a message, the number of its commands, and the assembler
(20_memory.md R54, 30_encoding.md R78 to R80, 70_reset_and_hazards.md R249). -/

namespace Sys2Proof.Proofs

open Sys2Proof Sys2Proof.Machine Sys2Proof.Laws

/-! ### The split (20_memory.md R54) -/

/-- There are as many full blocks as fit into the message. -/
theorem fullBlocks_length (w : Nat) (M : List Byte) : (fullBlocks w M).length = M.length / w := by
  simp [fullBlocks]

/-- The first `n` pieces of `w` bytes, joined, are the first `w * n` bytes. -/
theorem flatten_memRead (w n : Nat) (M : List Byte) :
    ((List.range n).map fun i => memRead M (w * i) w).flatten = M.take (w * n) := by
  induction n with
  | zero => simp
  | succ n ih =>
    rw [List.range_succ, List.map_append, List.flatten_append, ih, Nat.mul_succ, List.take_add]
    simp [memRead]

/-- A full block has all its bytes. -/
theorem length_of_mem_fullBlocks {w : Nat} {M b : List Byte} (h : b ∈ fullBlocks w M) : b.length = w := by
  obtain ⟨i, hi, rfl⟩ := List.mem_map.mp h
  have hlast : w * (i + 1) ≤ M.length :=
    (Nat.mul_le_mul_left w (List.mem_range.mp hi)).trans (Nat.mul_div_le M.length w)
  rw [Nat.mul_succ] at hlast
  simp only [memRead, List.length_take, List.length_drop]
  omega

/-- The tail has the bytes left over. -/
theorem tailBytes_length (w : Nat) (M : List Byte) : (tailBytes w M).length = M.length % w := by
  rw [tailBytes, List.length_drop, Nat.mod_eq_sub]

/-- Settles O35: the blocks are the bytes before the cut, and the tail is the bytes after it. -/
theorem splitLosesNoByte : Obligations.SplitLosesNoByte := by
  have hsplit (w : Nat) (M : List Byte) : (fullBlocks w M).flatten ++ tailBytes w M = M ∧
      (fullBlocks w M).length = M.length / w ∧ (∀ b ∈ fullBlocks w M, b.length = w) ∧
      (tailBytes w M).length = M.length % w := by
    refine ⟨?_, fullBlocks_length w M, fun b => length_of_mem_fullBlocks, tailBytes_length w M⟩
    rw [fullBlocks, flatten_memRead, tailBytes, List.take_append_drop]
  exact fun M => ⟨hsplit 4 M, hsplit 16 M⟩

/-- Settles O47: a command for each full block, and the three around them. -/
theorem commandsPerMessage : Obligations.CommandsPerMessage := by
  refine fun seed M => ⟨?_, ?_⟩
  · simp [expandHash32, fullBlocks_length]
  · simp [expandHash128, fullBlocks_length]

/-! ### The assembler (30_encoding.md R78 to R80) -/

/-- All commands of a list can be encoded. -/
def AllWf (is : List Instr) : Prop := ∀ i ∈ is, i.wf = true

theorem allWf_nil : AllWf [] := nofun

theorem allWf_singleton {i : Instr} : AllWf [i] ↔ i.wf = true := List.forall_mem_singleton

theorem allWf_cons {i : Instr} {is : List Instr} : AllWf (i :: is) ↔ i.wf = true ∧ AllWf is := List.forall_mem_cons

theorem allWf_append {is js : List Instr} : AllWf (is ++ js) ↔ AllWf is ∧ AllWf js := List.forall_mem_append

/-- Whatever the assembler accepts here can be encoded. -/
def MakesWf (a : Asm (List Instr)) : Prop := ∀ is, a = .ok is → AllWf is

theorem makesWf_ok {is : List Instr} (h : AllWf is) : MakesWf (.ok is) := by
  rintro _ ⟨⟩
  exact h

theorem makesWf_error (e : AsmError) : MakesWf (.error e) := nofun

theorem makesWf_ite {c : Prop} [Decidable c] {a b : Asm (List Instr)} (ha : MakesWf a) (hb : MakesWf b) :
    MakesWf (if c then a else b) := by
  by_cases hc : c
  · rwa [if_pos hc]
  · rwa [if_neg hc]

/-- A command without operands gets through as it is. -/
theorem makesWf_plain {i : Instr} (hi : i.wf = true) : (ws : List (List Char)) → MakesWf (plain i ws)
  | [] => makesWf_ok (allWf_singleton.mpr hi)
  | _ :: _ => makesWf_error _

/-- A command with a seed gets through with any seed. -/
theorem makesWf_seeded {mk : U32 → Instr} (hmk : ∀ seed, (mk seed).wf = true) (ws : List (List Char)) :
    MakesWf (seeded mk ws) := by
  unfold seeded
  split
  · split
    · exact makesWf_ok (allWf_singleton.mpr (hmk _))
    · exact makesWf_error _
  · exact makesWf_error _

/-- A command with bytes gets through only with a number of bytes that it can carry. -/
theorem makesWf_carrying (mk : List Byte → Instr) (ws : List (List Char)) : MakesWf (carrying mk ws) := by
  unfold carrying
  split
  · split
    case isTrue hwf => exact makesWf_ok (allWf_singleton.mpr hwf)
    case isFalse => exact makesWf_error _
  · exact makesWf_error _

/-- A pseudo-instruction gets through as its expansion. -/
theorem makesWf_expanding {mk : U32 → List Byte → List Instr} (hmk : ∀ seed M, AllWf (mk seed M))
    (ws : List (List Char)) : MakesWf (expanding mk ws) := by
  unfold expanding
  split
  · split
    · exact makesWf_ok (hmk _ _)
    · exact makesWf_error _
  · apply makesWf_ite
    · split
      · exact makesWf_ok (hmk _ _)
      · exact makesWf_error _
      · exact makesWf_error _
    · exact makesWf_error _
  · exact makesWf_error _

/-- The expansion of `HASH32` sends blocks of 4 bytes and a tail of at most 3 (R79). -/
theorem allWf_expandHash32 (seed : U32) (M : List Byte) : AllWf (expandHash32 seed M) := by
  have hblocks : AllWf ((fullBlocks 4 M).map .blk32) :=
    List.forall_mem_map.mpr fun b hb => beq_iff_eq.mpr (length_of_mem_fullBlocks hb)
  have htail : Instr.wf (.tail32 (tailBytes 4 M)) = true :=
    decide_eq_true (by rw [tailBytes_length]; omega)
  exact allWf_cons.mpr ⟨rfl, allWf_append.mpr ⟨hblocks, allWf_cons.mpr ⟨htail, allWf_singleton.mpr rfl⟩⟩⟩

/-- The expansion of `HASH128` sends blocks of 16 bytes and a tail of at most 15 (R80). -/
theorem allWf_expandHash128 (seed : U32) (M : List Byte) : AllWf (expandHash128 seed M) := by
  have hblocks : AllWf ((fullBlocks 16 M).map .blk128) :=
    List.forall_mem_map.mpr fun b hb => beq_iff_eq.mpr (length_of_mem_fullBlocks hb)
  have htail : Instr.wf (.tail128 (tailBytes 16 M)) = true :=
    decide_eq_true (by rw [tailBytes_length]; omega)
  exact allWf_cons.mpr ⟨rfl, allWf_append.mpr ⟨hblocks, allWf_cons.mpr ⟨htail, allWf_singleton.mpr rfl⟩⟩⟩

/-- A line makes well-formed commands only, whatever its first word. -/
theorem makesWf_assembleWords : (ws : List (List Char)) → MakesWf (assembleWords ws)
  | [] => makesWf_ok allWf_nil
  | _ :: ws =>
    makesWf_ite (makesWf_plain rfl ws) <|
    makesWf_ite (makesWf_seeded (fun _ => rfl) ws) <|
    makesWf_ite (makesWf_carrying .blk32 ws) <|
    makesWf_ite (makesWf_carrying .tail32 ws) <|
    makesWf_ite (makesWf_plain rfl ws) <|
    makesWf_ite (makesWf_seeded (fun _ => rfl) ws) <|
    makesWf_ite (makesWf_carrying .blk128 ws) <|
    makesWf_ite (makesWf_carrying .tail128 ws) <|
    makesWf_ite (makesWf_plain rfl ws) <|
    makesWf_ite (makesWf_expanding allWf_expandHash32 ws) <|
    makesWf_ite (makesWf_expanding allWf_expandHash128 ws) <|
    makesWf_error _

/-- So do lines. -/
theorem makesWf_assembleLines (lines : List (List Char)) : MakesWf (assembleLines lines) := by
  induction lines with
  | nil => exact makesWf_ok allWf_nil
  | cons line rest ih =>
    rw [assembleLines]
    split
    next hline hrest => exact makesWf_ok (allWf_append.mpr ⟨makesWf_assembleWords _ _ hline, ih _ hrest⟩)
    · exact makesWf_error _
    · exact makesWf_error _

/-- Settles O50: a script is its lines. -/
theorem assembledCommandsAreWellFormed : Obligations.AssembledCommandsAreWellFormed :=
  fun script => makesWf_assembleLines (linesOf script [])

end Sys2Proof.Proofs
end

section
/-! PROOFS. The stages of the datapath are bijections, and so are the mixes made of them
(40_datapath_primitives.md R120). -/

namespace Sys2Proof.Proofs

open Sys2Proof Sys2Proof.Machine Sys2Proof.Laws

/-! ### The stages -/

/-- On words of one width an injection is a bijection. -/
theorem bijective_of_injective {w : Nat} {f : BitVec w → BitVec w} (h : Function.Injective f) : Function.Bijective f :=
  h.bijective_of_finite

/-- A product with a constant that has an inverse is undone by the product with the inverse. -/
theorem mul_const_bijective {w : Nat} {c c' : BitVec w} (h : c * c' = 1#w) : Function.Bijective fun x => x * c := by
  have hinv : Function.LeftInverse (fun x => x * c') fun x => x * c := fun x => by
    simp only [BitVec.mul_assoc, h, BitVec.mul_one]
  exact bijective_of_injective hinv.injective

/-- A sum with a constant is undone by the difference. -/
theorem add_const_bijective {w : Nat} (c : BitVec w) : Function.Bijective fun x => x + c :=
  (Equiv.addRight c).bijective

/-- An XOR with a constant is undone by itself. -/
theorem xor_const_bijective {w : Nat} (c : BitVec w) : Function.Bijective fun x => x ^^^ c := by
  have hinv : Function.Involutive fun x => x ^^^ c := fun x => by
    simp only [BitVec.xor_assoc, BitVec.xor_self, BitVec.xor_zero]
  exact hinv.bijective

/-- A rotation only moves bits. -/
theorem rotateLeft_bijective {w r : Nat} (hr : r < w) : Function.Bijective fun x : BitVec w => x.rotateLeft r := by
  refine bijective_of_injective fun x y h => BitVec.eq_of_getLsbD_eq fun i hi => ?_
  calc x.getLsbD i
    _ = (x.rotateLeft r).getLsbD ((i + r) % w) := (rotateLeft_getLsbD_add_mod x hr hi).symm
    _ = (y.rotateLeft r).getLsbD ((i + r) % w) := congrArg (BitVec.getLsbD · _) h
    _ = y.getLsbD i := rotateLeft_getLsbD_add_mod y hr hi

/-- The only word that is its own shift is zero. -/
theorem eq_zero_of_ushiftRight_eq {w s : Nat} (hs : 0 < s) {d : BitVec w} (h : d >>> s = d) : d = 0#w := by
  apply BitVec.eq_of_toNat_eq
  have hn : d.toNat / 2 ^ s = d.toNat := by
    rw [← Nat.shiftRight_eq_div_pow, ← BitVec.toNat_ushiftRight, h]
  by_contra hd
  have hpos : 0 < d.toNat := Nat.pos_of_ne_zero hd
  exact absurd hn (Nat.div_lt_self hpos (Nat.one_lt_two_pow hs.ne')).ne

/-- Two words with the same xor-shift differ by a word that is its own shift. -/
theorem xorShift_bijective {w s : Nat} (hs : 0 < s) : Function.Bijective fun x : BitVec w => x ^^^ (x >>> s) := by
  refine bijective_of_injective fun x y h => BitVec.xor_eq_zero_iff.mp (eq_zero_of_ushiftRight_eq hs ?_)
  have hz : x ^^^ (x >>> s) ^^^ (y ^^^ (y >>> s)) = 0#w := BitVec.xor_eq_zero_iff.mpr h
  rw [BitVec.ushiftRight_xor_distrib]
  apply BitVec.xor_eq_zero_iff.mp
  rw [← hz]
  ac_rfl

theorem rotl32_bijective {r : Nat} (hr : r < 32) : Function.Bijective fun x => rotl32 x r := by
  simpa only [rotl32_eq_rotateLeft _ hr] using rotateLeft_bijective hr

theorem rotl64_bijective {r : Nat} (hr : r < 64) : Function.Bijective fun x => rotl64 x r := by
  simpa only [rotl64_eq_rotateLeft _ hr] using rotateLeft_bijective hr

theorem xsr32_bijective {s : Nat} (hs : 0 < s) : Function.Bijective fun x => xsr32 x s :=
  xorShift_bijective hs

theorem xsr64_bijective {s : Nat} (hs : 0 < s) : Function.Bijective fun x => xsr64 x s :=
  xorShift_bijective hs

/-! ### The constants are odd, so each has an inverse -/

theorem mul_c1w32_bijective : Function.Bijective fun x => x * c1w32 :=
  mul_const_bijective (c' := 0xdee13bb1) (by decide)
theorem mul_c2w32_bijective : Function.Bijective fun x => x * c2w32 :=
  mul_const_bijective (c' := 0x56ed309b) (by decide)
theorem mul_m32_bijective : Function.Bijective fun x => x * m32 :=
  mul_const_bijective (c' := 0xcccccccd) (by decide)
theorem mul_f1w32_bijective : Function.Bijective fun x => x * f1w32 :=
  mul_const_bijective (c' := 0xa5cb9243) (by decide)
theorem mul_f2w32_bijective : Function.Bijective fun x => x * f2w32 :=
  mul_const_bijective (c' := 0x7ed1b41d) (by decide)
theorem mul_c1w64_bijective : Function.Bijective fun x => x * c1w64 :=
  mul_const_bijective (c' := 0xa98409e882ce4d7d) (by decide)
theorem mul_c2w64_bijective : Function.Bijective fun x => x * c2w64 :=
  mul_const_bijective (c' := 0xa81e14edd9de2c7f) (by decide)
theorem mul_f1w64_bijective : Function.Bijective fun x => x * f1w64 :=
  mul_const_bijective (c' := 0x4f74430c22a54005) (by decide)
theorem mul_f2w64_bijective : Function.Bijective fun x => x * f2w64 :=
  mul_const_bijective (c' := 0x9cb4b2f8129337db) (by decide)

/-! ### The mixes -/

theorem kmix32_bijective : Function.Bijective kmix32 :=
  mul_c2w32_bijective.comp ((rotl32_bijective (by decide)).comp mul_c1w32_bijective)

theorem kmix1w64_bijective : Function.Bijective kmix1w64 :=
  mul_c2w64_bijective.comp ((rotl64_bijective (by decide)).comp mul_c1w64_bijective)

theorem kmix2w64_bijective : Function.Bijective kmix2w64 :=
  mul_c1w64_bijective.comp ((rotl64_bijective (by decide)).comp mul_c2w64_bijective)

theorem fmix32_bijective : Function.Bijective fmix32 :=
  (xsr32_bijective (by decide)).comp <| mul_f2w32_bijective.comp <| (xsr32_bijective (by decide)).comp <|
    mul_f1w32_bijective.comp (xsr32_bijective (by decide))

theorem fmix64_bijective : Function.Bijective fmix64 :=
  (xsr64_bijective (by decide)).comp <| mul_f2w64_bijective.comp <| (xsr64_bijective (by decide)).comp <|
    mul_f1w64_bijective.comp (xsr64_bijective (by decide))

theorem hround32_bijective (m : U32) : Function.Bijective fun h => hround32 h m :=
  (add_const_bijective n32).comp <| mul_m32_bijective.comp <|
    (rotl32_bijective (by decide)).comp (xor_const_bijective m)

/-- Settles O39: zero is evaluated, and each mix is its stages one after the other. -/
theorem mixesAreBijections : Obligations.MixesAreBijections :=
  ⟨by decide, by decide, kmix2w64_zero, by decide, by decide, kmix32_bijective, kmix1w64_bijective, kmix2w64_bijective,
    fmix32_bijective, fmix64_bijective, hround32_bijective⟩

end Sys2Proof.Proofs
end

section
/-! PROOFS. The clocked command port: its edges are steps, a command holds it for its latency, and a waiting beat is
held (70_reset_and_hazards.md R240, R244, R245, R248, R251). -/

namespace Sys2Proof.Proofs

open Sys2Proof Sys2Proof.Machine Sys2Proof.Safety Sys2Proof.Laws

/-! ### Edges of the clocked port -/

/-- A started beat has its result once it has completed, whatever its latency. -/
theorem settled_startFor (k : Nat) (b : Beat) (c : Clocked) : (startFor k b c).settled = beatResult b c.regs := by
  cases k with
  | zero => rw [startFor_zero, settled_idle rfl]
  | succ n => rw [startFor_succ, settled_busy rfl]

/-- Starting a beat takes no move. -/
theorem startFor_port (k : Nat) (b : Beat) (c : Clocked) : (startFor k b c).regs.port = c.regs.port := by
  cases k with
  | zero => rw [startFor_zero, beatResult_port]
  | succ n => rw [startFor_succ]

/-- Starting a beat leaves the block held or not. -/
theorem startFor_held (k : Nat) (b : Beat) (c : Clocked) : (startFor k b c).regs.held = c.regs.held := by
  cases k with
  | zero => rw [startFor_zero, beatResult_held]
  | succ n => rw [startFor_succ]

/-- An edge that accepts a beat starts it. -/
theorem clockEdge_accepts {c : Clocked} {b : Beat} (hb : c.busy = none) (ha : accepted c.regs = some b) :
    clockEdge c = startFor (Config.lat c.count b.op) b { c with regs := pastBeat c.regs } := by
  have hr := (cmdReady_true (accepted_some ha).1).1
  simp [clockEdge, hr, hb, ha, startBeat]

/-- An edge out of reset that finds a command in progress takes an edge of the host and no more. -/
theorem settled_clockEdge_busy {c : Clocked} (hb : c.busy ≠ none) (hr : nextRst c.regs = false) :
    (clockEdge c).settled = pastEdge c.settled := by
  obtain ⟨hr', -⟩ | ⟨-, p, hp, -, he⟩ | ⟨-, p, k, hp, -, he⟩ | ⟨-, hb', -⟩ | ⟨-, hb', -⟩ := clockEdge_cases c
  · cases hr.symm.trans hr'
  · rw [he, settled_idle rfl, settled_busy hp]
  · rw [he, settled_busy rfl, settled_busy hp, beatResult_pastEdge]
  · exact absurd hb' hb
  · exact absurd hb' hb

/-- Every other edge leaves what the step leaves. -/
theorem step_settled {c : Clocked} (h : c.busy = none ∨ nextRst c.regs = true) :
    step c.settled = .next (clockEdge c).settled := by
  cases hr : nextRst c.regs with
  | true =>
    have hrs : nextRst c.settled = true := by rwa [nextRst, settled_rst]
    have hreset : resetRegisters c.settled = resetRegisters c.regs := by
      rw [resetRegisters, settled_rst, settled_port, resetRegisters]
    rw [step_reset hrs, hreset, clockEdge_reset hr, settled_idle rfl]
  | false =>
    have hb : c.busy = none := h.resolve_right (by simp [hr])
    rw [settled_idle hb]
    cases ha : accepted c.regs with
    | some b => rw [step_accepts ha, clockEdge_accepts hb ha, settled_startFor, beatResult_pastBeat]
    | none =>
      rw [step_waits hr ha, clockEdge_waits hb hr ha]
      exact congrArg _ (settled_idle (c := { c with regs := pastEdge (release c.regs) }) hb).symm

/-! ### The host's moves at an edge -/

/-- An edge accepts the presented beat, which an idle port alone does, or leaves a presented beat waiting. -/
theorem clockEdge_port (c : Clocked) :
    (clockEdge c).regs.port = afterWaiting c.regs.port ∨
    (c.busy = none ∧ (∃ b, accepted c.regs = some b) ∧ (clockEdge c).regs.port = c.regs.port.tail) := by
  obtain ⟨-, he⟩ | ⟨-, p, -, -, he⟩ | ⟨-, p, k, -, -, he⟩ | ⟨-, hb, b, ha, he⟩ | ⟨-, -, -, he⟩ := clockEdge_cases c
  · exact .inl (by rw [he, pastEdge_port, resetRegisters_port])
  · exact .inl (by rw [he, pastEdge_port, beatResult_port])
  · exact .inl (by rw [he, pastEdge_port])
  · exact .inr ⟨hb, ⟨b, ha⟩, by rw [he, startFor_port, pastBeat_port]⟩
  · exact .inl (by rw [he, pastEdge_port, release_port])

/-- After the end of its list the host presents nothing. -/
theorem clockEdge_port_nil {c : Clocked} (hp : c.regs.port = []) : (clockEdge c).regs.port = [] := by
  obtain h | ⟨-, -, h⟩ := clockEdge_port c
  · rw [h, hp, afterWaiting]
  · rw [h, hp, List.tail_nil]

/-- At an edge at which the port is not ready a presented beat waits. -/
theorem clockEdge_port_waits {c : Clocked} {b : Beat} {rest : List Move} (hp : c.regs.port = .present b :: rest)
    (hready : c.ready = false) : (clockEdge c).regs.port = .present b :: rest := by
  obtain h | ⟨hb, ⟨b', ha⟩, -⟩ := clockEdge_port c
  · rw [h, hp, afterWaiting]
  · simp [Clocked.ready, hb, (accepted_some ha).1] at hready

/-- At an edge at which the port is ready a presented beat is accepted. -/
theorem accepted_of_ready {c : Clocked} {b : Beat} {rest : List Move} (hp : c.regs.port = .present b :: rest)
    (hready : c.ready = true) : c.busy = none ∧ accepted c.regs = some b := by
  obtain ⟨hc, hb⟩ : cmdReady c.regs = true ∧ c.busy = none := by simpa [Clocked.ready] using hready
  obtain ⟨hr, hh⟩ := cmdReady_true hc
  exact ⟨hb, accepted_of hp hr hh⟩

/-! ### A stretch of edges as steps (R248) -/

/-- An edge out of reset that finds a command in progress is no step. -/
theorem seen_succ_busy {n : Nat} {c : Clocked} (hb : c.busy ≠ none) (hr : nextRst c.regs = false) :
    seen (n + 1) c = seen n (clockEdge c) := by
  simp [seen, hr, Option.isSome_iff_ne_none.mpr hb]

/-- Every other edge is a step, and takes its move. -/
theorem seen_succ_step {n : Nat} {c : Clocked} (h : c.busy = none ∨ nextRst c.regs = true) :
    seen (n + 1) c = { steps := (seen n (clockEdge c)).steps + 1
                       rst := nextRst c.regs :: (seen n (clockEdge c)).rst
                       port := takenMove c.regs ++ (seen n (clockEdge c)).port } := by
  obtain h | h := h <;> simp [seen, h]

/-- After the end of the host's list no move is seen. -/
theorem seen_port_nil (n : Nat) {c : Clocked} (hp : c.regs.port = []) : (seen n c).port = [] := by
  induction n generalizing c with
  | zero => exact hp
  | succ n ih =>
    have hrest := ih (clockEdge_port_nil hp)
    by_cases h : c.busy = none ∨ nextRst c.regs = true
    · rw [seen_succ_step h, hrest, takenMove, hp]
      rfl
    · rw [not_or, Bool.not_eq_true] at h
      rwa [seen_succ_busy h.1 h.2]

/-- A beat that is presented is the first move that is seen. -/
theorem seen_port_present (n : Nat) {c : Clocked} {b : Beat} {rest : List Move}
    (hp : c.regs.port = .present b :: rest) : ∃ later, (seen n c).port = .present b :: later := by
  induction n generalizing c with
  | zero => exact ⟨rest, hp⟩
  | succ n ih =>
    cases hready : c.ready with
    | true =>
      obtain ⟨hb, ha⟩ := accepted_of_ready hp hready
      rw [seen_succ_step (.inl hb), takenMove, hp]
      simp [(accepted_some ha).1]
    | false =>
      obtain ⟨later, hlater⟩ := ih (clockEdge_port_waits hp hready)
      by_cases h : c.busy = none ∨ nextRst c.regs = true
      · have hc : cmdReady c.regs = false := by
          obtain hb | hr := h
          · simpa [Clocked.ready, hb] using hready
          · exact cmdReady_reset hr
        rw [seen_succ_step h, takenMove, hp]
        exact ⟨later, by simp [hc, hlater]⟩
      · rw [not_or, Bool.not_eq_true] at h
        rw [seen_succ_busy h.1 h.2]
        exact ⟨later, hlater⟩

/-- A command in progress does not change whether the block is ready. -/
theorem cmdReady_settled (c : Clocked) : cmdReady c.settled = cmdReady c.regs := by
  have hheld : c.settled.held = c.regs.held := by
    unfold Clocked.settled
    split <;> simp
  rw [cmdReady, cmdReady, nextRst, nextRst, settled_rst, hheld]

/-- A step with other input that begins like its own does the same over the rest of that input. -/
theorem step_withInput {s t : State} {r : List Bool} {p : List Move} (h : step s = .next t)
    (hr : r.headD false = nextRst s) (ha : accepted (withInput r p s) = accepted s) :
    step (withInput r p s) =
      .next (withInput r.tail (if accepted s = none then afterWaiting p else p.tail) t) := by
  obtain ⟨hs, rfl⟩ | ⟨hs, hn, rfl⟩ | ⟨-, b, hb, rfl⟩ := step_cases h
  · rw [if_pos (accepted_none (cmdReady_reset hs)), step_reset (s := withInput r p s) (hr.trans hs)]
    rfl
  · rw [if_pos hn, step_waits (s := withInput r p s) (hr.trans hs) (ha.trans hn)]
    rfl
  · rw [if_neg (by simp [hb]), step_accepts (ha.trans hb), beatResult_withInput]
    rfl

section
variable (n : Nat) (c : Clocked)

/-- The moves that are seen from an edge on begin with the beat that is accepted at it, if any. -/
theorem accepted_seen (r : List Bool) :
    accepted (withInput (nextRst c.regs :: r) (takenMove c.regs ++ (seen n (clockEdge c)).port) c.settled) =
      accepted c.settled := by
  have hready (p : List Move) : cmdReady (withInput (nextRst c.regs :: r) p c.settled) = cmdReady c.regs := by
    rw [← cmdReady_settled, cmdReady, cmdReady, nextRst, nextRst, nextRst, settled_rst]
    rfl
  match hp : c.regs.port with
  | [] => simp [accepted, takenMove, hp, seen_port_nil n (clockEdge_port_nil hp)]
  | .quiet values :: rest => simp [accepted, takenMove, hp]
  | .present b :: rest =>
    cases hc : cmdReady c.regs with
    | true => simp [accepted, takenMove, hp, hc, hready, cmdReady_settled]
    | false => rw [accepted_none ((hready _).trans hc), accepted_none ((cmdReady_settled c).trans hc)]

/-- Once that edge is past, the moves that are seen from the next edge on are left. -/
theorem takenMove_past :
    (if accepted c.settled = none then afterWaiting (takenMove c.regs ++ (seen n (clockEdge c)).port)
      else (takenMove c.regs ++ (seen n (clockEdge c)).port).tail) = (seen n (clockEdge c)).port := by
  match hp : c.regs.port with
  | [] => simp [accepted, takenMove, hp, seen_port_nil n (clockEdge_port_nil hp), afterWaiting]
  | .quiet values :: rest => simp [accepted, takenMove, hp, afterWaiting]
  | .present b :: rest =>
    cases hc : cmdReady c.regs with
    | true => simp [accepted, takenMove, hp, hc, cmdReady_settled]
    | false =>
      obtain ⟨later, hlater⟩ := seen_port_present n (clockEdge_port_waits hp (ready_eq_false hc))
      simp [accepted, takenMove, hp, hc, cmdReady_settled, hlater, afterWaiting]

/-- Over what is seen of the host, a number of edges is as many steps as are seen. -/
theorem run_seen : Sys2Proof.core.run (seen n c).steps (withInput (seen n c).rst (seen n c).port c.settled) =
    .next (clockEdges n c).settled := by
  induction n generalizing c with
  | zero =>
    rw [seen, clockEdges, ← settled_rst, ← settled_port, withInput_self]
    exact run_zero _
  | succ n ih =>
    rw [clockEdges, ← ih]
    by_cases h : c.busy = none ∨ nextRst c.regs = true
    · have hstep := step_withInput (step_settled h) (r := nextRst c.regs :: (seen n (clockEdge c)).rst)
        (by rw [nextRst, nextRst, settled_rst]; rfl) (accepted_seen n c _)
      rw [takenMove_past] at hstep
      rw [seen_succ_step h]
      exact run_succ hstep
    · rw [not_or, Bool.not_eq_true] at h
      rw [seen_succ_busy h.1 h.2, settled_clockEdge_busy h.1 h.2, pastEdge, withInput_withInput]

end

/-- Settles O48: edge by edge, and by induction on the number of edges. -/
theorem clockedPortRunsTheStep : Obligations.ClockedPortRunsTheStep :=
  ⟨fun _ => settled_clockEdge_busy, fun _ => step_settled, run_seen⟩

/-! ### The latency (R244, R248) -/

/-- An edge out of reset on which the command in progress waits on. -/
theorem clockEdge_busy_succ {c : Clocked} {b : Beat} {k : Nat} (hb : c.busy = some ⟨b, k + 1⟩)
    (hr : nextRst c.regs = false) : clockEdge c = { c with regs := pastEdge c.regs, busy := some ⟨b, k⟩ } := by
  simp [clockEdge, hr, hb, advance]

/-- An edge out of reset at which the command in progress completes. -/
theorem clockEdge_busy_zero {c : Clocked} {b : Beat} (hb : c.busy = some ⟨b, 0⟩) (hr : nextRst c.regs = false) :
    clockEdge c = { c with regs := pastEdge (beatResult b c.regs), busy := none } := by
  simp [clockEdge, hr, hb, advance, beatResult_pastEdge]

/-- Before its last edge a command in progress has changed no register, and holds the port. -/
theorem clockEdges_busy {n k : Nat} {c : Clocked} {b : Beat} (hb : c.busy = some ⟨b, k⟩) (hn : n ≤ k)
    (hr : noReset n c.regs = true) :
    ∃ r p, clockEdges n c = { c with regs := withInput r p c.regs, busy := some ⟨b, k - n⟩ } := by
  induction n generalizing c k with
  | zero => exact ⟨c.regs.rst, c.regs.port, by rw [withInput_self, Nat.sub_zero, ← hb, clockEdges]⟩
  | succ n ih =>
    obtain ⟨k, rfl⟩ := Nat.exists_eq_add_one_of_ne_zero (by omega : k ≠ 0)
    obtain ⟨hr0, hrest⟩ := noReset_succ hr
    rw [clockEdges, clockEdge_busy_succ hb hr0, Nat.add_sub_add_right]
    exact ih rfl (by omega) (hrest _ rfl)

/-- At its last edge a command in progress has its result. -/
theorem clockEdges_completes {k : Nat} {c : Clocked} {b : Beat} (hb : c.busy = some ⟨b, k⟩)
    (hr : noReset (k + 1) c.regs = true) :
    ∃ r p, clockEdges (k + 1) c = { c with regs := withInput r p (beatResult b c.regs), busy := none } := by
  induction k generalizing c with
  | zero => exact ⟨_, _, clockEdge_busy_zero hb (noReset_succ hr).1⟩
  | succ k ih =>
    obtain ⟨hr0, hrest⟩ := noReset_succ hr
    obtain ⟨r, p, hrun⟩ := ih (c := { c with regs := pastEdge c.regs, busy := some ⟨b, k⟩ }) rfl (hrest _ rfl)
    refine ⟨r, p, ?_⟩
    rw [clockEdges, clockEdge_busy_succ hb hr0, hrun]
    simp only [pastEdge, beatResult_withInput, withInput_withInput]

/-- A beat that was started to complete at the `k`-th edge has its result there. -/
theorem clockEdges_startFor {k : Nat} (b : Beat) {c : Clocked} (hr : noReset k c.regs = true) :
    ∃ r p, clockEdges k (startFor k b c) =
      { regs := withInput r p (beatResult b c.regs), busy := none, count := c.count + 1 } := by
  cases k with
  | zero => exact ⟨_, _, by rw [clockEdges, startFor_zero, withInput_self]⟩
  | succ k =>
    rw [startFor_succ]
    exact clockEdges_completes rfl hr

/-- Settles O49: an accepted beat is in progress for its latency, and then has its result. -/
theorem commandHoldsThePortForItsLatency : Obligations.CommandHoldsThePortForItsLatency := by
  intro c b hb ha
  have hh : c.regs.held = false := (cmdReady_true (accepted_some ha).1).2
  refine ⟨clockEdge_accepts hb ha, fun k n hr => ⟨fun hn => ?_, ?_⟩⟩
  · obtain ⟨k, rfl⟩ := Nat.exists_eq_add_one_of_ne_zero (by omega : k ≠ 0)
    obtain ⟨r, p, hrun⟩ := clockEdges_busy (n := n) (c := startFor (k + 1) b { c with regs := pastBeat c.regs }) rfl
      (by omega) hr
    rw [hrun]
    exact ⟨by simp [Clocked.ready], by simp [sameRegisters]⟩
  · rintro rfl
    obtain ⟨r, p, hrun⟩ := clockEdges_startFor b (c := { c with regs := pastBeat c.regs }) hr
    rw [hrun]
    refine ⟨rfl, fun hr0 => ?_, beatResult b c.regs, acceptBeat_eq b c.regs, ?_⟩
    · simp [Clocked.ready, cmdReady, hr0, hh]
    · simp [sameRegisters, beatResult_pastBeat]

/-! ### A waiting beat (R245, R251) -/

/-- A presented beat is still presented after any number of edges at which the port was not ready. -/
theorem clockEdges_port_waits {n : Nat} {c : Clocked} {b : Beat} {rest : List Move}
    (hp : c.regs.port = .present b :: rest) (hready : ∀ j, j < n → (clockEdges j c).ready = false) :
    (clockEdges n c).regs.port = .present b :: rest := by
  induction n generalizing c with
  | zero => exact hp
  | succ n ih =>
    exact ih (clockEdge_port_waits hp (hready 0 n.succ_pos)) fun j hj => hready (j + 1) (by omega)

/-- Settles O51: an edge that accepts nothing leaves the beat, and one that accepts takes the beat presented. -/
theorem aWaitingBeatIsHeld : Obligations.AWaitingBeatIsHeld := by
  refine ⟨fun s t b rest hp h => ?_, fun n c b rest hp hready => clockEdges_port_waits hp hready,
    fun c b rest hp hready => ?_, fun c p => rfl⟩
  · obtain ⟨hr, rfl⟩ | ⟨-, ha, rfl⟩ | ⟨-, b', ha, rfl⟩ := step_cases h
    · have ha := accepted_none (cmdReady_reset hr)
      exact ⟨fun _ => by simp [hp, afterWaiting], fun hne => absurd ha hne⟩
    · exact ⟨fun _ => by simp [hp, afterWaiting], fun hne => absurd ha hne⟩
    · obtain ⟨hc, -⟩ := accepted_some ha
      obtain ⟨hr, hh⟩ := cmdReady_true hc
      exact ⟨fun hnone => by simp [ha] at hnone, fun _ => ⟨accepted_of hp hr hh, by simp [hp]⟩⟩
  · obtain ⟨hb, ha⟩ := accepted_of_ready hp hready
    refine ⟨ha, ?_⟩
    rw [clockEdge_accepts hb ha, startFor_port, pastBeat_port, hp, List.tail_cons]

/-! ### The edge that ends the holding (R240) -/

/-- No edge leaves a held block with a command in progress, if it found none. -/
theorem clockEdge_held_idle {c : Clocked} (h : c.regs.held = true → c.busy = none)
    (hh : (clockEdge c).regs.held = true) : (clockEdge c).busy = none := by
  obtain ⟨-, he⟩ | ⟨-, p, -, -, he⟩ | ⟨-, p, k, hp, -, he⟩ | ⟨-, -, b, ha, he⟩ | ⟨-, hb, -, he⟩ := clockEdge_cases c
  · rw [he]
  · rw [he]
  · rw [he] at hh
    cases hp.symm.trans (h hh)
  · rw [he, startFor_held, pastBeat_held, (cmdReady_true (accepted_some ha).1).2] at hh
    cases hh
  · rw [he, hb]

/-- Settles O52: a held block is not ready, and the first edge out of reset releases it. -/
theorem heldUntilTheFirstEdgeOutOfReset : Obligations.HeldUntilTheFirstEdgeOutOfReset :=
  ⟨fun _ hh hr => ⟨accepted_none (cmdReady_held hh), step_held hr hh⟩, fun _ _ => step_held_iff,
    fun _ hh => ready_eq_false (cmdReady_held hh), fun _ => clockEdge_held, rfl, fun _ => clockEdge_held_idle⟩

end Sys2Proof.Proofs
end
